-- ==== Sys2Proof/Word.lean ====
section
/-! DEFINITION. The block's two value types, both unsigned: the byte and the 16-bit word
(00_scope.md R9). -/

namespace Sys2Proof

/-- A byte, an unsigned 8-bit value (R9). -/
abbrev Byte := BitVec 8

/-- A word, an unsigned 16-bit value (R9). -/
abbrev Word := BitVec 16

end Sys2Proof
end

