-- ==== Sys2Proof/Config.lean ====
section
/-! DEFINITION. The block's fixed parameters (00_scope.md R7), its one open parameter (R8), and the
values the spec leaves unspecified (70_reset_and_hazards.md R200), which have no body. -/

namespace Sys2Proof

/-- The order of the two checksum bytes in a frame. HIGH_FIRST is the only admitted value
(20_memory.md R43; 90_conflicts.md C4; 92_eei_decisions.md D19). UNVERIFIED: log entry 9. -/
inductive WireOrder where
  | highFirst
  deriving DecidableEq, Repr

/-- `CRC_POLY`, the reflected polynomial (R7). -/
def Config.crcPoly : Word := 0xA001

/-- `CRC_INIT` (R7). -/
def Config.crcInit : Word := 0xFFFF

/-- `CRC_XOROUT`: `value` returns the register unchanged (R7, R101). UNVERIFIED: log entry 10. -/
def Config.crcXorOut : Word := 0x0000

/-- `CRC_WIRE_ORDER` (R7, R43). -/
def Config.crcWireOrder : WireOrder := .highFirst

/-- `MAX_PAYLOAD` (R7). -/
def Config.maxPayload : Nat := 252

/-- `FRAME_OVERHEAD`: address, function code and two checksum bytes (R7). -/
def Config.frameOverhead : Nat := 4

/-- `MAX_FRAME` (R7). -/
def Config.maxFrame : Nat := 256

/-- `MIN_FRAME` (R7). -/
def Config.minFrame : Nat := 4

/-- The largest length a 16-bit length field can carry, from `LEN_FIELD_WIDTH` = 16 (R7). -/
def Config.maxOperand : Nat := 65535

/-- `BLOCK_BASE`, the block's place in a host's address map: open, and no rule reads it (R8, R48).
Log entry 15. -/
opaque Config.blockBase : Nat

/-- The unspecified value of `CRC` after the reset signal that finds the draw counter at the given
number (R21, R200: "any 16-bit value"). A free value: log entry 2. -/
opaque Config.resetCrc : Nat → Word

/-- The unspecified value of `ADDR` after the reset signal that finds the draw counter at the given
number (R23, R200: "any 8-bit value"). A free value: log entry 2. -/
opaque Config.resetAddr : Nat → Byte

end Sys2Proof
end

