-- ==== Sys2Proof/Machine/Crc16.lean ====
section
/-! DEFINITION. The checksum function (40_checksum.md R100, R101). -/

namespace Sys2Proof.Machine

/-- One turn of the loop of R100: shift right, and xor the polynomial in where a 1 was shifted out.
UNVERIFIED: log entry 10. -/
def crcShift (c : Word) : Word :=
  if c.getLsbD 0 then (c >>> 1) ^^^ Config.crcPoly else c >>> 1

/-- `crcShift` a number of times. -/
def crcShifts : Nat → Word → Word
  | 0, c => c
  | k + 1, c => crcShifts k (crcShift c)

/-- `crcStep(c, b)`: fold one byte into the accumulator (R100). -/
def crcStep (c : Word) (b : Byte) : Word := crcShifts 8 (c ^^^ b.setWidth 16)

/-- `fold(c, s)`: fold a byte sequence into the accumulator, in order from offset 0 (R101, R102). -/
def crcFold (c : Word) (s : List Byte) : Word := s.foldl crcStep c

/-- The accumulator read out. There is no final xor (R101, R7 `CRC_XOROUT`). UNVERIFIED: log
entry 10. -/
def crcOutput (c : Word) : Word := c ^^^ Config.crcXorOut

/-- `crc16(s)` (R13, R101). -/
def crc16 (s : List Byte) : Word := crcOutput (crcFold Config.crcInit s)

end Sys2Proof.Machine
end

