-- ==== Sys2Proof/Syntax.lean ====
section
/-! DEFINITION. The block's commands as terms (30_encoding.md R64, R69): one constructor per row of
spec/opcode_table.json. The two verdicts of R69 that are no command of the table, ILLEGAL and
TRUNCATED, are the decoder's (Sys2Proof/Decode.lean). -/

namespace Sys2Proof

/-- A command with its operands (30_encoding.md R64). -/
inductive Instr where
  /-- CRC_RESET (40_checksum.md R103). -/
  | crcReset
  /-- CRC_PUSH: the bytes to fold in (40_checksum.md R104). -/
  | crcPush (data : List Byte)
  /-- CRC_VALUE (40_checksum.md R105). -/
  | crcValue
  /-- SET_ADDR: the unit address (41_encoder.md R121). -/
  | setAddr (a : Byte)
  /-- ENCODE: the function code and the payload (41_encoder.md R122). -/
  | encode (fc : Byte) (payload : List Byte)
  /-- VERIFY: the request frame and the response frame (42_decoder.md R140). -/
  | verify (req resp : List Byte)
  /-- DECODE: the frame (42_decoder.md R142). -/
  | decode (frame : List Byte)
  deriving DecidableEq, Repr

end Sys2Proof
end

