-- ==== Sys2Proof/WellFormed.lean ====
section
/-! DEFINITION. Which commands a host can express: every byte-sequence operand has at most 65535
bytes (30_encoding.md R69; 00_scope.md R7 `LEN_FIELD_WIDTH`). -/

namespace Sys2Proof

/-- A byte sequence that a 16-bit length field can announce (R63, R69). -/
def fitsLen16 (s : List Byte) : Bool := decide (s.length ≤ Config.maxOperand)

/-- The well-formedness check of a command (R69). -/
def Instr.wellFormed : Instr → Bool
  | .crcReset => true
  | .crcPush data => fitsLen16 data
  | .crcValue => true
  | .setAddr _ => true
  | .encode _ payload => fitsLen16 payload
  | .verify req resp => fitsLen16 req && fitsLen16 resp
  | .decode frame => fitsLen16 frame

/-- A command is well formed when the check passes (R69). -/
abbrev Instr.WellFormed (i : Instr) : Prop := i.wellFormed = true

end Sys2Proof
end

