-- ==== Sys2Proof/Decode.lean ====
section
/-! DEFINITION. The command stream decoder (30_encoding.md R63 to R69), total on any bytes, and after
it the encoder, written from the same formats of R64. -/

namespace Sys2Proof

/-! ## Verdicts and opcodes -/

/-- What the stream decoder finds at the head of a stream (R67, R69): a command, a reserved opcode
byte, or a stream that ends inside a command. -/
inductive Verdict where
  | command (i : Instr)
  | illegal (op : Byte)
  | truncated
  deriving DecidableEq, Repr

/-- The seven assigned opcodes (R66). -/
inductive Opcode where
  | crcReset | crcPush | crcValue | setAddr | encode | verify | decode
  deriving DecidableEq, Repr

/-- The opcode column of R64. -/
def Opcode.byte : Opcode → Byte
  | .crcReset => 0x01
  | .crcPush => 0x02
  | .crcValue => 0x03
  | .setAddr => 0x10
  | .encode => 0x20
  | .verify => 0x30
  | .decode => 0x40

/-- The rows of the opcode map (R66). -/
def opcodeRows : List Opcode :=
  [.crcReset, .crcPush, .crcValue, .setAddr, .encode, .verify, .decode]

/-- The opcode an opcode byte selects. The whole byte is compared (mask 0xFF), and the 249 reserved
bytes select none (R66). -/
def opcodeOf (b : Byte) : Option Opcode := opcodeRows.find? fun o => o.byte == b

/-- The well-formedness check of a verdict: a well-formed command, an opcode byte that is reserved, or
TRUNCATED (R69). -/
def verdictWellFormed : Verdict → Bool
  | .command i => i.wellFormed
  | .illegal op => (opcodeOf op).isNone
  | .truncated => true

/-! ## Operand fields (R63, R65) -/

/-- The value of a len16 field: high byte first (R45, R63). -/
def len16Value (hi lo : Byte) : Nat := hi.toNat * 256 + lo.toNat

/-- Read an imm8 field (R63). -/
def readImm8 : List Byte → Option (Byte × List Byte)
  | [] => none
  | b :: rest => some (b, rest)

/-- Read a len16 field (R63). -/
def readLen16 : List Byte → Option (Nat × List Byte)
  | hi :: lo :: rest => some (len16Value hi lo, rest)
  | _ => none

/-- Read a bytes[n] field: exactly n bytes, or nothing where the stream ends first (R63, R67). -/
def readBytes (n : Nat) (s : List Byte) : Option (List Byte × List Byte) :=
  if n ≤ s.length then some (s.take n, s.drop n) else none

/-- Read a len16 field and the bytes[L] field it announces (R63). -/
def readSeq (s : List Byte) : Option (List Byte × List Byte) :=
  match readLen16 s with
  | none => none
  | some (n, rest) => readBytes n rest

/-- Read the operand fields of an opcode in the order of R64: the command and the bytes after it, or
nothing where the stream ends inside it. -/
def decodeOperands (o : Opcode) (s : List Byte) : Option (Instr × List Byte) :=
  match o with
  | .crcReset => some (.crcReset, s)
  | .crcPush => (readSeq s).map fun f => (.crcPush f.1, f.2)
  | .crcValue => some (.crcValue, s)
  | .setAddr => (readImm8 s).map fun f => (.setAddr f.1, f.2)
  | .encode =>
    match readImm8 s with
    | none => none
    | some (fc, rest) => (readSeq rest).map fun f => (.encode fc f.1, f.2)
  | .verify =>
    match readSeq s with
    | none => none
    | some (req, rest) => (readSeq rest).map fun f => (.verify req f.1, f.2)
  | .decode => (readSeq s).map fun f => (.decode f.1, f.2)

/-! ## The stream decoder (R67) -/

/-- Cut the first verdict off a stream, with the bytes that are still to be decoded. Nothing is left
to decode after ILLEGAL or TRUNCATED: the decoder stops there (R67). An empty stream gives no
verdict. -/
def decodeNext : List Byte → Option (Verdict × List Byte)
  | [] => none
  | op :: s =>
    match opcodeOf op with
    | none => some (.illegal op, [])
    | some o =>
      match decodeOperands o s with
      | none => some (.truncated, [])
      | some (i, rest) => some (.command i, rest)

/-- `decodeStream` with a bound on the number of verdicts. -/
def decodeStreamUpTo : Nat → List Byte → List Verdict
  | 0, _ => []
  | k + 1, s =>
    match decodeNext s with
    | none => []
    | some (v, rest) => v :: decodeStreamUpTo k rest

/-- The stream decoder of R67: all verdicts of a byte stream. Every verdict takes at least one byte,
so the length of the stream bounds their number. -/
def decodeStream (s : List Byte) : List Verdict := decodeStreamUpTo s.length s

/-! ## The encoder -/

/-- A 16-bit field of a command or a response: `[n[15:8], n[7:0]]`, high byte first (R45, R63). -/
def len16Bytes (n : Nat) : List Byte := [BitVec.ofNat 8 (n / 256), BitVec.ofNat 8 n]

/-- A len16 field and the bytes[L] field after it (R63). -/
def encodeSeq (s : List Byte) : List Byte := len16Bytes s.length ++ s

/-- The bytes of a command (R64, and the "encodes as" column of R71). -/
def encode : Instr → List Byte
  | .crcReset => [Opcode.crcReset.byte]
  | .crcPush data => Opcode.crcPush.byte :: encodeSeq data
  | .crcValue => [Opcode.crcValue.byte]
  | .setAddr a => [Opcode.setAddr.byte, a]
  | .encode fc payload => Opcode.encode.byte :: fc :: encodeSeq payload
  | .verify req resp => Opcode.verify.byte :: (encodeSeq req ++ encodeSeq resp)
  | .decode frame => Opcode.decode.byte :: encodeSeq frame

/-- The "total" column of R64. -/
def Instr.encodedLength : Instr → Nat
  | .crcReset => 1
  | .crcPush data => 3 + data.length
  | .crcValue => 1
  | .setAddr _ => 2
  | .encode _ payload => 4 + payload.length
  | .verify req resp => 5 + req.length + resp.length
  | .decode frame => 3 + frame.length

/-! ## Words of the opcode table -/

/-- The len16 field at an offset of a stream, where a byte past the end counts as zero. -/
def len16At (s : List Byte) (k : Nat) : Nat := len16Value (s.getD k 0) (s.getD (k + 1) 0)

/-- The total length (R64) of the command a stream begins with, where a byte past the end counts as
zero; 1 for a reserved opcode byte and for the empty stream. -/
def commandLength (s : List Byte) : Nat :=
  match opcodeOf (s.getD 0 0) with
  | none => 1
  | some .crcReset => 1
  | some .crcPush => 3 + len16At s 1
  | some .crcValue => 1
  | some .setAddr => 2
  | some .encode => 4 + len16At s 2
  | some .verify => 5 + len16At s 1 + len16At s (3 + len16At s 1)
  | some .decode => 3 + len16At s 1

/-- The first k bytes of a number, least significant byte first. -/
def bytesOfNat : Nat → Nat → List Byte
  | 0, _ => []
  | k + 1, w => BitVec.ofNat 8 w :: bytesOfNat k (w / 256)

/-- The bytes of an instruction whose first nbits bits are those of w and whose other bits are zero:
the stream's first byte holds bits 7..0. Log entry 19. -/
def tableCommand (nbits w : Nat) : List Byte :=
  let s := bytesOfNat (nbits / 8) w
  s ++ List.replicate (commandLength s - s.length) 0

/-- The command the decoder reads from a word numbered as spec/opcode_table.json numbers its bits. -/
def decodeTableWord (nbits w : Nat) : Option Instr :=
  match decodeNext (tableCommand nbits w) with
  | some (.command i, _) => some i
  | some (.illegal _, _) => none
  | some (.truncated, _) => none
  | none => none

end Sys2Proof
end

