-- ==== Sys2Proof/Machine/Operands.lean ====
section
/-! DEFINITION. Reading the operands of a command: the byte-sequence operators of 00_scope.md R11,
the two bytes of a word (R10), and the checksum's place and order in a frame (20_memory.md R43). -/

namespace Sys2Proof.Machine

/-- `s[i]` (R11). Every rule guards i < len(s), so the default is never what a rule reads (R41). -/
def byteAt (s : List Byte) (i : Nat) : Byte := s.getD i 0

/-- `s[a..b)` (R11). -/
def slice (s : List Byte) (a b : Nat) : List Byte := (s.drop a).take (b - a)

/-- The high byte `v[15:8]` (R10). -/
def hiByte (v : Word) : Byte := v.extractLsb' 8 8

/-- The low byte `v[7:0]` (R10). -/
def loByte (v : Word) : Byte := v.extractLsb' 0 8

/-- The word with the given high and low byte: `hi · 256 + lo` (R43). -/
def wordOf (hi lo : Byte) : Word := hi ++ lo

/-- A 16-bit result field, high byte first (R45, R70). -/
def wordBytes (v : Word) : List Byte := [hiByte v, loByte v]

/-- The two checksum bytes of a frame, those at offsets n-2 and n-1 (R43). -/
def checksumBytes (v : Word) : List Byte :=
  match Config.crcWireOrder with
  | .highFirst => [hiByte v, loByte v]

/-- The checksum that a frame's bytes at offsets n-2 and n-1 embed (R43). -/
def checksumOfBytes (first second : Byte) : Word :=
  match Config.crcWireOrder with
  | .highFirst => wordOf first second

end Sys2Proof.Machine
end

