-- ==== Sys2Proof/Machine/Flags.lean ====
section
/-! DEFINITION. The outcome codes of a command. The block has no flags that persist (10_state.md
R28); its outcomes are the status codes of 60_exceptions.md R171 and the fault causes of R173. -/

namespace Sys2Proof.Machine

/-- The statuses that are not faults (R171). -/
inductive Status where
  | ok
  | frameTooLarge
  | responseTooShort
  | unitMismatch
  | checksumMismatch
  deriving DecidableEq, Repr

/-- The status codes of R171. -/
def statusCode : Status → Byte
  | .ok => 0x00
  | .frameTooLarge => 0x01
  | .responseTooShort => 0x02
  | .unitMismatch => 0x03
  | .checksumMismatch => 0x04

/-- The fault causes (R173). -/
inductive Cause where
  | illegalOpcode
  | truncated
  | crcUninit
  | addrUnset
  | decodeLength
  | verifyNoRequest
  deriving DecidableEq, Repr

/-- The cause codes of R173. -/
def causeCode : Cause → Byte
  | .illegalOpcode => 0x01
  | .truncated => 0x02
  | .crcUninit => 0x03
  | .addrUnset => 0x04
  | .decodeLength => 0x05
  | .verifyNoRequest => 0x06

/-- The status byte of a faulted response, `0x80 | FAULT` (R171, R174, R175). -/
def faultStatus (cause : Byte) : Byte := 0x80 ||| cause

end Sys2Proof.Machine
end

