-- ==== Sys2Proof/Machine/State.lean ====
section
/-! DEFINITION. The block's state as plain data: the five registers of 10_state.md R20, and the
interface to the host (60_exceptions.md R181, R184). -/

namespace Sys2Proof.Machine

/-- One move of the host (60_exceptions.md R181): it sends a byte stream of commands, or it asserts
reset between commands. -/
inductive HostMove where
  | send (stream : List Byte)
  | reset
  deriving DecidableEq, Repr

/-- One response: the status byte and the result bytes after it (30_encoding.md R70). -/
structure Response where
  status : Byte
  data : List Byte
  deriving DecidableEq, Repr

/-- The five registers of 10_state.md R20 on their own. -/
structure Registers where
  crc : Word
  crcValid : Bool
  addr : Byte
  addrValid : Bool
  fault : Byte
  deriving DecidableEq, Repr

/-- The state of the block and of its interface to the host. -/
structure State where
  /-- `CRC`, the running checksum accumulator (R21). -/
  crc : Word
  /-- `CRC_VALID`: whether `CRC` has been initialised since reset (R22). -/
  crcValid : Bool
  /-- `ADDR`, the unit address used by ENCODE (R23). -/
  addr : Byte
  /-- `ADDR_VALID`: whether `ADDR` has been written since reset (R24). -/
  addrValid : Bool
  /-- `FAULT`, the sticky fault cause, 0 meaning none (R25). -/
  fault : Byte
  /-- The host's moves that are still to come, the next one first (R181). Log entry 4. -/
  input : List HostMove
  /-- The responses returned so far, oldest first (R70, R184). Log entries 4 and 8. -/
  responses : List Response
  /-- The model's own counter of reset signals, which draws the unspecified values of R200. Log
  entry 2. -/
  draws : Nat
  deriving DecidableEq, Repr

/-- The registers of a state (R20). -/
def State.registers (s : State) : Registers :=
  ⟨s.crc, s.crcValid, s.addr, s.addrValid, s.fault⟩

/-- The position of 10_state.md R27: how many commands have been executed, each of which has its one
response (R70). -/
def State.commandIndex (s : State) : Nat := s.responses.length

/-- Why the machine itself would stop with a fault. There is no such reason: entering a fault and
being halted are described as transitions with a response (60_exceptions.md R174, R175), so they are
next states. Nothing raises this; safe. Log entry 3. -/
inductive Fault where
  deriving DecidableEq, Repr

/-- Why a step has no meaning. -/
inductive Refusal where
  /-- Raised by an arm of `exec` for an instruction that has no meaning yet; safe. No arm does. -/
  | notModelled (mnemonic : String)
  /-- Raised by `step` when the host has no move left: "The block may not: act without a command"
  (60_exceptions.md R181); safe. Log entry 7. -/
  | noCommand
  deriving DecidableEq, Repr

/-- The block right after reset (70_reset_and_hazards.md R200), with no host move pending and no
response returned. R200 leaves `CRC` and `ADDR` unspecified: zero here is a DESIGN CHOICE, unsafe,
log entry 1. The draw counter's zero is a DESIGN CHOICE, log entry 2. -/
def State.reset : State where
  crc := 0
  crcValid := false
  addr := 0
  addrValid := false
  fault := 0
  input := []
  responses := []
  draws := 0

end Sys2Proof.Machine
end

