-- ==== Sys2Proof/Machine/Ops.lean ====
section
/-! DEFINITION. The named operations every command is written with: writing a register, responding
(00_scope.md R12), entering a fault (60_exceptions.md R174), the halted block (R175), and the reset
signal (70_reset_and_hazards.md R200), which is the only way out of a fault (R176). -/

namespace Sys2Proof.Machine

/-- `CRC <- v` (R12). -/
def setCrc (v : Word) (s : State) : State := { s with crc := v }

/-- `CRC_VALID <- b` (R12). -/
def setCrcValid (b : Bool) (s : State) : State := { s with crcValid := b }

/-- `ADDR <- v` (R12). -/
def setAddr (v : Byte) (s : State) : State := { s with addr := v }

/-- `ADDR_VALID <- b` (R12). -/
def setAddrValid (b : Bool) (s : State) : State := { s with addrValid := b }

/-- `FAULT <- v` (R12). -/
def setFault (v : Byte) (s : State) : State := { s with fault := v }

/-- The host's moves that are left. -/
def setInput (ms : List HostMove) (s : State) : State := { s with input := ms }

/-- Hand the host one more response (R70). -/
def returnResponse (r : Response) (s : State) : State :=
  { s with responses := s.responses ++ [r] }

/-- The bytes of a response: the status byte, then the result fields with no padding (R70). -/
def responseBytes (r : Response) : List Byte := r.status :: r.data

/-- `respond(status, data)` (R12, R171). -/
def respond (c : Status) (data : List Byte) (s : State) : State :=
  returnResponse ⟨statusCode c, data⟩ s

/-- `raise Fault(cause)`, the fault entry of R174: the cause goes into `FAULT`, the response is
`0x80 | cause`, and nothing else changes. -/
def raiseFault (c : Cause) (s : State) : State :=
  returnResponse ⟨faultStatus (causeCode c), []⟩ (setFault (causeCode c) s)

/-- What the halted block does with every command: `respond(0x80 | FAULT, [])` (R175). -/
def respondHalted (s : State) : State := returnResponse ⟨faultStatus s.fault, []⟩ s

/-- Execute a command: the halted test comes first for every command (R175, R177). Every command
completes with exactly one response, so it has a next state (R47, R70). -/
def runCommand (body : State → State) (s : State) : Host.Outcome State Fault Refusal :=
  .next (if s.fault = 0#8 then body s else respondHalted s)

/-- The reset signal (70_reset_and_hazards.md R200). `CRC` and `ADDR` become unspecified: fresh free
values of the configuration (log entry 2). The responses stay with the host (log entry 8). -/
def resetSignal (s : State) : State :=
  { s with
    crc := Config.resetCrc s.draws
    crcValid := false
    addr := Config.resetAddr s.draws
    addrValid := false
    fault := 0#8
    draws := s.draws + 1 }

end Sys2Proof.Machine
end

