-- ==== Sys2Proof/Machine/Checksum.lean ====
section
/-! DEFINITION. The checksum commands CRC_RESET, CRC_PUSH and CRC_VALUE (40_checksum.md). -/

namespace Sys2Proof.Machine

/-- What CRC_RESET does on a block that is not halted (R103). -/
def crcResetEffect (s : State) : State :=
  respond .ok [] (setCrcValid true (setCrc Config.crcInit s))

/-- CRC_RESET (R103). -/
def execCrcReset (s : State) : Host.Outcome State Fault Refusal :=
  runCommand crcResetEffect s

/-- What CRC_PUSH does on a block that is not halted (R104). -/
def crcPushEffect (data : List Byte) (s : State) : State :=
  if s.crcValid = false then raiseFault .crcUninit s
  else respond .ok [] (setCrc (crcFold s.crc data) s)

/-- CRC_PUSH (R104). -/
def execCrcPush (data : List Byte) (s : State) : Host.Outcome State Fault Refusal :=
  runCommand (crcPushEffect data) s

/-- What CRC_VALUE does on a block that is not halted (R105). -/
def crcValueEffect (s : State) : State :=
  if s.crcValid = false then raiseFault .crcUninit s
  else respond .ok (wordBytes (crcOutput s.crc)) s

/-- CRC_VALUE (R105). -/
def execCrcValue (s : State) : Host.Outcome State Fault Refusal :=
  runCommand crcValueEffect s

end Sys2Proof.Machine
end

