-- ==== Sys2Proof/Machine/Decoder.lean ====
section
/-! DEFINITION. The decoder commands VERIFY and DECODE (42_decoder.md). -/

namespace Sys2Proof.Machine

/-- `recomputed(F)` = crc16(F[0..n-2)) (R141). -/
def recomputed (f : List Byte) : Word := crc16 (slice f 0 (f.length - 2))

/-- `embedded(F)` = F[n-2] · 256 + F[n-1] (R141, R43). -/
def embedded (f : List Byte) : Word :=
  checksumOfBytes (byteAt f (f.length - 2)) (byteAt f (f.length - 1))

/-- What VERIFY does on a block that is not halted (R140). The length of the response is tested first
(R177, 90_conflicts.md C2). -/
def verifyEffect (req resp : List Byte) (s : State) : State :=
  if resp.length < Config.minFrame then respond .responseTooShort [] s
  else if req.length = 0 then raiseFault .verifyNoRequest s
  else if byteAt resp 0 ≠ byteAt req 0 then respond .unitMismatch [] s
  else respond .ok [] s

/-- VERIFY (R140). -/
def execVerify (req resp : List Byte) (s : State) : Host.Outcome State Fault Refusal :=
  runCommand (verifyEffect req resp) s

/-- The result bytes of an OK DECODE: the function code, the payload's length and the payload (R142,
R70). -/
def pduBytes (f : List Byte) : List Byte :=
  byteAt f 1 :: (len16Bytes (f.length - Config.frameOverhead) ++ slice f 2 (f.length - 2))

/-- What DECODE does on a block that is not halted (R142, R143). -/
def decodeEffect (f : List Byte) (s : State) : State :=
  if f.length < Config.minFrame ∨ f.length > Config.maxFrame then raiseFault .decodeLength s
  else if recomputed f ≠ embedded f then respond .checksumMismatch [] s
  else respond .ok (pduBytes f) s

/-- DECODE (R142). -/
def execDecode (frame : List Byte) (s : State) : Host.Outcome State Fault Refusal :=
  runCommand (decodeEffect frame) s

end Sys2Proof.Machine
end

