-- ==== Sys2Proof/Machine/Encoder.lean ====
section
/-! DEFINITION. The encoder commands SET_ADDR and ENCODE (41_encoder.md). -/

namespace Sys2Proof.Machine

/-- The bytes a frame's checksum covers when it is built: address, function code and payload (R61,
R120). -/
def coveredBytes (a fc : Byte) (payload : List Byte) : List Byte := a :: fc :: payload

/-- `frameOf(a, fc, payload)` (R120). -/
def frameOf (a fc : Byte) (payload : List Byte) : List Byte :=
  coveredBytes a fc payload ++ checksumBytes (crc16 (coveredBytes a fc payload))

/-- What SET_ADDR does on a block that is not halted (R121). -/
def setAddrEffect (a : Byte) (s : State) : State :=
  respond .ok [] (setAddrValid true (setAddr a s))

/-- SET_ADDR (R121). -/
def execSetAddr (a : Byte) (s : State) : Host.Outcome State Fault Refusal :=
  runCommand (setAddrEffect a) s

/-- The length of the frame with a given payload: exact, no width truncates it (R123). -/
def frameLength (payload : List Byte) : Nat := payload.length + Config.frameOverhead

/-- What ENCODE does on a block that is not halted (R122). The length is tested before the address
(R177). -/
def encodeEffect (fc : Byte) (payload : List Byte) (s : State) : State :=
  if frameLength payload > Config.maxFrame then respond .frameTooLarge [] s
  else if s.addrValid = false then raiseFault .addrUnset s
  else respond .ok (len16Bytes (frameLength payload) ++ frameOf s.addr fc payload) s

/-- ENCODE (R122). -/
def execEncode (fc : Byte) (payload : List Byte) (s : State) : Host.Outcome State Fault Refusal :=
  runCommand (encodeEffect fc payload) s

end Sys2Proof.Machine
end

