-- ==== Sys2Proof/Machine/Dispatch.lean ====
section
/-! DEFINITION. The meaning of each command: one arm per constructor of Instr. -/

namespace Sys2Proof.Machine

/-- Execute one command. -/
def exec (i : Instr) (s : State) : Host.Outcome State Fault Refusal :=
  match i with
  | .crcReset => Sys2Proof.Machine.execCrcReset s
  | .crcPush data => Sys2Proof.Machine.execCrcPush data s
  | .crcValue => Sys2Proof.Machine.execCrcValue s
  | .setAddr a => Sys2Proof.Machine.execSetAddr a s
  | .encode fc payload => Sys2Proof.Machine.execEncode fc payload s
  | .verify req resp => Sys2Proof.Machine.execVerify req resp s
  | .decode frame => Sys2Proof.Machine.execDecode frame s

end Sys2Proof.Machine
end

