-- ==== Sys2Proof/Machine/Fetch.lean ====
section
/-! DEFINITION. Taking the host's next move (60_exceptions.md R181), and executing a verdict of the
stream decoder (30_encoding.md R67, 60_exceptions.md R173). -/

namespace Sys2Proof.Machine

/-- What the block meets next: nothing, the reset signal, or a verdict, with the moves after it. -/
inductive Fetched where
  | nothing
  | reset (rest : List HostMove)
  | verdict (v : Verdict) (rest : List HostMove)
  deriving DecidableEq, Repr

/-- Put the bytes of a stream that are still to be decoded back before the later moves. -/
def pushBack (rest : List Byte) (ms : List HostMove) : List HostMove :=
  if rest = [] then ms else .send rest :: ms

/-- Take the host's next move. A stream is decoded one verdict at a time; an empty stream holds no
command and is passed over (R67, log entry 18). -/
def fetch : List HostMove → Fetched
  | [] => .nothing
  | .reset :: ms => .reset ms
  | .send bs :: ms =>
    match decodeNext bs with
    | none => fetch ms
    | some (v, rest) => .verdict v (pushBack rest ms)

/-- The verdict ILLEGAL executes as Fault(ILLEGAL_OPCODE) (R66, R173). On a halted block the halted
test comes first (R177). -/
def execIllegal (s : State) : Host.Outcome State Fault Refusal :=
  runCommand (raiseFault .illegalOpcode) s

/-- The verdict TRUNCATED executes as Fault(TRUNCATED) (R67, R173). On a halted block the halted test
comes first (R177). -/
def execTruncated (s : State) : Host.Outcome State Fault Refusal :=
  runCommand (raiseFault .truncated) s

/-- Execute one verdict. -/
def execVerdict (v : Verdict) (s : State) : Host.Outcome State Fault Refusal :=
  match v with
  | .command i => exec i s
  | .illegal _ => execIllegal s
  | .truncated => execTruncated s

end Sys2Proof.Machine
end

