-- ==== Sys2Proof/Machine/Step.lean ====
section
/-! DEFINITION. One step of the block: it executes the next verdict of the host's stream, or takes
the reset signal (20_memory.md R44, R47; 60_exceptions.md R181). -/

namespace Sys2Proof.Machine

/-- One step. With no move of the host left the block may not act (R181). -/
def step (s : State) : Host.Outcome State Fault Refusal :=
  match fetch s.input with
  | .nothing => .refused .noCommand
  | .reset rest => .next (resetSignal (setInput rest s))
  | .verdict v rest => execVerdict v (setInput rest s)

/-- The state with an instruction of the opcode table as the host's next move: its words, numbered as
the table numbers them, with every other bit zero. This stands for the host sending the command (log
entry 17). -/
def State.withFetchWord (s : State) (nbits w : Nat) : State :=
  setInput (.send (tableCommand nbits w) :: s.input) s

end Sys2Proof.Machine
end

