-- ==== Sys2Proof/Machine/Assembler.lean ====
section
/-! DEFINITION. The assembler text of 30_encoding.md R71 and the pseudo-instructions of R72. Text is a
list of characters. Where R71 leaves the text's form open, log entry 14 says what is read. -/

namespace Sys2Proof.Machine

/-! ## Pseudo-instructions (R72) -/

/-- `CRC_OF {d}` (R72). -/
def crcOf (d : List Byte) : List Instr := [.crcReset, .crcPush d, .crcValue]

/-- `ENCODE_TO a, fc, {p}` (R72). -/
def encodeTo (a fc : Byte) (p : List Byte) : List Instr := [.setAddr a, .encode fc p]

/-! ## Characters -/

/-- The opening brace. -/
def openBrace : Char := Char.ofNat 0x7B

/-- The closing brace. -/
def closeBrace : Char := Char.ofNat 0x7D

/-- White space inside a line. -/
def isBlank (c : Char) : Bool := c == ' ' || c == '\t' || c == '\r'

/-- The value of a decimal digit. -/
def decDigit (c : Char) : Option Nat :=
  if 48 ≤ c.toNat ∧ c.toNat ≤ 57 then some (c.toNat - 48) else none

/-- The value of a hexadecimal digit, of either case. -/
def hexDigit (c : Char) : Option Nat :=
  if 48 ≤ c.toNat ∧ c.toNat ≤ 57 then some (c.toNat - 48)
  else if 65 ≤ c.toNat ∧ c.toNat ≤ 70 then some (c.toNat - 55)
  else if 97 ≤ c.toNat ∧ c.toNat ≤ 102 then some (c.toNat - 87)
  else none

/-- The digit of a value below 16, in upper case. -/
def hexChar (n : Nat) : Char := if n < 10 then Char.ofNat (48 + n) else Char.ofNat (55 + n)

/-! ## Numbers -/

/-- Two hexadecimal digits. -/
def hexByte : List Char → Option Byte
  | [h, l] =>
    match hexDigit h, hexDigit l with
    | some a, some b => some (BitVec.ofNat 8 (a * 16 + b))
    | _, _ => none
  | _ => none

/-- The decimal number of a word that continues the number read so far. -/
def decimalFrom : Nat → List Char → Option Nat
  | acc, [] => some acc
  | acc, c :: cs =>
    match decDigit c with
    | some d => decimalFrom (acc * 10 + d) cs
    | none => none

/-- A decimal number: at least one digit. -/
def decimal : List Char → Option Nat
  | [] => none
  | c :: cs => decimalFrom 0 (c :: cs)

/-- A byte operand: `0xHH`, or a decimal 0 to 255 (R71). -/
def byteOperand : List Char → Option Byte
  | '0' :: 'x' :: ds => hexByte ds
  | ds =>
    match decimal ds with
    | some n => if n ≤ 255 then some (BitVec.ofNat 8 n) else none
    | none => none

/-- One item of a byte sequence: `HH`, or `N*HH` for N copies (R71). DESIGN CHOICE: N may be 0; log
entry 14. -/
def seqItem (w : List Char) : Option (List Byte) :=
  match w.span (· != '*') with
  | (_, []) => (hexByte w).map fun b => [b]
  | (count, _ :: ds) =>
    match decimal count, hexByte ds with
    | some n, some b => some (List.replicate n b)
    | _, _ => none

/-! ## Tokens -/

/-- The tokens of a line. -/
inductive Token where
  | word (cs : List Char)
  | comma
  | opening
  | closing
  deriving DecidableEq, Repr

/-- Close the word read so far before the tokens that follow it. -/
def endWord (w : List Char) (ts : List Token) : List Token :=
  if w = [] then ts else .word w :: ts

/-- The tokens of a line, with the word read so far. `;` starts a comment (R71). DESIGN CHOICE: a comma,
a brace or `;` also ends a word, so no blank need stand beside it: `CRC_PUSH` may touch its opening
brace. R71 is silent on this; log entry 14. -/
def tokensFrom : List Char → List Char → List Token
  | w, [] => endWord w []
  | w, c :: cs =>
    if c = ';' then endWord w []
    else if isBlank c then endWord w (tokensFrom [] cs)
    else if c = ',' then endWord w (.comma :: tokensFrom [] cs)
    else if c = openBrace then endWord w (.opening :: tokensFrom [] cs)
    else if c = closeBrace then endWord w (.closing :: tokensFrom [] cs)
    else tokensFrom (w ++ [c]) cs

/-- The tokens of a line. -/
def tokens (line : List Char) : List Token := tokensFrom [] line

/-! ## Operands -/

/-- The items of a byte sequence up to its closing brace, and the tokens after it. -/
def seqItems : List Token → Option (List Byte × List Token)
  | .closing :: ts => some ([], ts)
  | .word w :: ts =>
    match seqItem w, seqItems ts with
    | some bs, some (rest, ts') => some (bs ++ rest, ts')
    | _, _ => none
  | _ => none

/-- A byte sequence in braces, and the tokens after it (R71). -/
def seqOperand : List Token → Option (List Byte × List Token)
  | .opening :: ts => seqItems ts
  | _ => none

/-- A byte operand, and the tokens after it (R71). -/
def wordOperand : List Token → Option (Byte × List Token)
  | .word w :: ts => (byteOperand w).map fun b => (b, ts)
  | _ => none

/-- A comma. -/
def afterComma : List Token → Option (List Token)
  | .comma :: ts => some ts
  | _ => none

/-- Nothing more may stand on the line. -/
def atEnd {α : Type} (x : α) : List Token → Option α
  | [] => some x
  | _ :: _ => none

/-- One byte-sequence operand and the end of the line. -/
def oneSeq (ts : List Token) : Option (List Byte) := do
  let (d, ts) ← seqOperand ts
  atEnd d ts

/-- Two byte-sequence operands and the end of the line. -/
def twoSeqs (ts : List Token) : Option (List Byte × List Byte) := do
  let (q, ts) ← seqOperand ts
  let ts ← afterComma ts
  let r ← oneSeq ts
  some (q, r)

/-- A byte operand, a byte-sequence operand and the end of the line. -/
def byteAndSeq (ts : List Token) : Option (Byte × List Byte) := do
  let (b, ts) ← wordOperand ts
  let ts ← afterComma ts
  let p ← oneSeq ts
  some (b, p)

/-- A byte operand and the end of the line. -/
def oneByte (ts : List Token) : Option Byte := do
  let (b, ts) ← wordOperand ts
  atEnd b ts

/-- Two byte operands, a byte-sequence operand and the end of the line. -/
def twoBytesAndSeq (ts : List Token) : Option (Byte × Byte × List Byte) := do
  let (a, ts) ← wordOperand ts
  let ts ← afterComma ts
  let (fc, p) ← byteAndSeq ts
  some (a, fc, p)

/-! ## Lines and programs -/

/-- The mnemonics of R71 and R72. -/
inductive Mnemonic where
  | crcReset | crcPush | crcValue | setAddr | encode | verify | decode | crcOf | encodeTo
  deriving DecidableEq, Repr

/-- How a mnemonic is written (R71, R72). -/
def Mnemonic.text : Mnemonic → List Char
  | .crcReset => ['C', 'R', 'C', '_', 'R', 'E', 'S', 'E', 'T']
  | .crcPush => ['C', 'R', 'C', '_', 'P', 'U', 'S', 'H']
  | .crcValue => ['C', 'R', 'C', '_', 'V', 'A', 'L', 'U', 'E']
  | .setAddr => ['S', 'E', 'T', '_', 'A', 'D', 'D', 'R']
  | .encode => ['E', 'N', 'C', 'O', 'D', 'E']
  | .verify => ['V', 'E', 'R', 'I', 'F', 'Y']
  | .decode => ['D', 'E', 'C', 'O', 'D', 'E']
  | .crcOf => ['C', 'R', 'C', '_', 'O', 'F']
  | .encodeTo => ['E', 'N', 'C', 'O', 'D', 'E', '_', 'T', 'O']

/-- All mnemonics. -/
def mnemonics : List Mnemonic :=
  [.crcReset, .crcPush, .crcValue, .setAddr, .encode, .verify, .decode, .crcOf, .encodeTo]

/-- The commands a mnemonic and its operands stand for (R71, R72). -/
def assembleOperands (m : Mnemonic) (ts : List Token) : Option (List Instr) :=
  match m with
  | .crcReset => atEnd [.crcReset] ts
  | .crcPush => (oneSeq ts).map fun d => [.crcPush d]
  | .crcValue => atEnd [.crcValue] ts
  | .setAddr => (oneByte ts).map fun a => [.setAddr a]
  | .encode => (byteAndSeq ts).map fun x => [.encode x.1 x.2]
  | .verify => (twoSeqs ts).map fun x => [.verify x.1 x.2]
  | .decode => (oneSeq ts).map fun f => [.decode f]
  | .crcOf => (oneSeq ts).map crcOf
  | .encodeTo => (twoBytesAndSeq ts).map fun x => encodeTo x.1 x.2.1 x.2.2

/-- The commands of one line; a line with no token has none. A sequence that no len16 field can
announce does not assemble (R69). -/
def assembleLine (line : List Char) : Option (List Instr) :=
  match tokens line with
  | [] => some []
  | .word w :: ts =>
    match mnemonics.find? fun m => m.text == w with
    | none => none
    | some m =>
      match assembleOperands m ts with
      | none => none
      | some is => if is.all Instr.wellFormed then some is else none
  | _ :: _ => none

/-- The commands of a program, one command a line (R71). -/
def assembleLines : List (List Char) → Option (List Instr)
  | [] => some []
  | l :: ls =>
    match assembleLine l, assembleLines ls with
    | some a, some b => some (a ++ b)
    | _, _ => none

/-- The byte stream of a program (R71): the encodings of its commands, in order. -/
def assemble (text : List Char) : Option (List Byte) :=
  (assembleLines (text.splitOn '\n')).map fun is => is.flatMap encode

/-! ## Writing a command in the syntax of R71 -/

/-- A byte as two hexadecimal digits. -/
def hexText (b : Byte) : List Char := [hexChar (b.toNat / 16), hexChar (b.toNat % 16)]

/-- A byte operand, `0xHH`. -/
def byteText (b : Byte) : List Char := '0' :: 'x' :: hexText b

/-- A byte sequence in braces, its bytes separated by spaces. -/
def seqText (s : List Byte) : List Char :=
  openBrace :: (((s.map hexText).intersperse [' ']).flatten ++ [closeBrace])

/-- A command as R71 writes it. -/
def asmText : Instr → List Char
  | .crcReset => Mnemonic.text .crcReset
  | .crcPush data => Mnemonic.text .crcPush ++ ' ' :: seqText data
  | .crcValue => Mnemonic.text .crcValue
  | .setAddr a => Mnemonic.text .setAddr ++ ' ' :: byteText a
  | .encode fc payload =>
    Mnemonic.text .encode ++ ' ' :: (byteText fc ++ [',', ' '] ++ seqText payload)
  | .verify req resp =>
    Mnemonic.text .verify ++ ' ' :: (seqText req ++ [',', ' '] ++ seqText resp)
  | .decode frame => Mnemonic.text .decode ++ ' ' :: seqText frame

end Sys2Proof.Machine
end

