-- ==== Sys2Proof/Safety.lean ====
section
/-! DEFINITION. What a run is and when it ends well (60_exceptions.md R184), the values the spec calls
legal (R171, R173), and the terms the statements use. -/

namespace Sys2Proof.Safety

open Sys2Proof.Machine

/-- Execute a list of verdicts in order, each from the state the one before it left (20_memory.md
R49, 60_exceptions.md R184). -/
def runVerdicts : List Verdict → State → Host.Outcome State Fault Refusal
  | [], s => .next s
  | v :: vs, s =>
    match execVerdict v s with
    | .next t => runVerdicts vs t
    | .fault r => .fault r
    | .refused r => .refused r

/-- Execute a list of commands of the opcode table in order (R49). -/
def runCommands (is : List Instr) (s : State) : Host.Outcome State Fault Refusal :=
  runVerdicts (is.map .command) s

/-- The commands a run is made of are well formed (R184, R69). The commands of R69 are the verdicts of
the stream decoder: the seven of the opcode table, ILLEGAL of a reserved byte, and TRUNCATED. -/
abbrev RunWellFormed (vs : List Verdict) : Prop := ∀ v ∈ vs, verdictWellFormed v = true

/-- A list of the commands of R69 executed in order from the reset state (R184). -/
def runFromReset (vs : List Verdict) : Host.Outcome State Fault Refusal :=
  runVerdicts vs State.reset

/-- A run and the state after its last command: a finite list of well-formed commands, executed in
order from the reset state (R184). -/
abbrev IsRun (vs : List Verdict) (t : State) : Prop := RunWellFormed vs ∧ runFromReset vs = .next t

/-- What is observed of a run: its responses and the final registers (R184). -/
def observation (s : State) : List Response × Registers := (s.responses, s.registers)

/-- A state with one more response. -/
def withResponse (s : State) (status : Byte) (data : List Byte) : State :=
  { s with responses := s.responses ++ [⟨status, data⟩] }

/-- A run ends well if `FAULT` = 0x00 after its last command (R184). -/
abbrev EndsWell (s : State) : Prop := s.fault = 0#8

/-- `FAULT` holds 0x00 or one of the six cause codes of R173 (R25). -/
abbrev FaultLegal (s : State) : Prop := s.fault.toNat ≤ 6

/-- The statuses of R171: 0x00 to 0x04, and 0x80 with a cause 0x01 to 0x06. -/
abbrev StatusLegal (b : Byte) : Prop := b.toNat ≤ 4 ∨ (0x81 ≤ b.toNat ∧ b.toNat ≤ 0x86)

/-- A response has a status of R171, only an OK response carries data (R70), and the longest data is
an ENCODE frame of 256 bytes with its length field (R70, R62). -/
abbrev ResponseLegal (r : Response) : Prop :=
  StatusLegal r.status ∧ (r.status ≠ 0#8 → r.data = []) ∧ r.data.length ≤ 258

/-- The block's invariant: `FAULT` is legal (R25), every response is (R70, R171), and while `FAULT` is
set the last response says so, 0x80 with the cause (R174, R175). -/
abbrev Inv (s : State) : Prop :=
  FaultLegal s ∧
  (∀ r ∈ s.responses, ResponseLegal r) ∧
  (s.fault ≠ 0#8 → s.responses.getLast? = some ⟨0x80 ||| s.fault, []⟩)

/-- Two states that the host cannot tell apart by any response: they differ at most in a register
that is not valid, and in the model's own draw counter (R22, R24, R200). -/
abbrev SameToHost (s t : State) : Prop :=
  s.crcValid = t.crcValid ∧ (s.crcValid = true → s.crc = t.crc) ∧
  s.addrValid = t.addrValid ∧ (s.addrValid = true → s.addr = t.addr) ∧
  s.fault = t.fault ∧ s.input = t.input ∧ s.responses = t.responses

/-- A byte sequence with bit j of the byte at offset k inverted (R145). -/
def flipBit (f : List Byte) (k j : Nat) : List Byte :=
  f.modify k fun b => b ^^^ (1#8 <<< j)

/-- The bytes that the CRC_PUSH commands of a list push, in order (R203). -/
def pushedBytes : List Instr → List Byte
  | [] => []
  | .crcPush data :: is => data ++ pushedBytes is
  | .crcReset :: is => pushedBytes is
  | .crcValue :: is => pushedBytes is
  | .setAddr _ :: is => pushedBytes is
  | .encode _ _ :: is => pushedBytes is
  | .verify _ _ :: is => pushedBytes is
  | .decode _ :: is => pushedBytes is

/-- The operand of the last SET_ADDR of a list, if it has one (R204). -/
def lastAddr : List Instr → Option Byte
  | [] => none
  | .setAddr a :: is => some ((lastAddr is).getD a)
  | .crcReset :: is => lastAddr is
  | .crcPush _ :: is => lastAddr is
  | .crcValue :: is => lastAddr is
  | .encode _ _ :: is => lastAddr is
  | .verify _ _ :: is => lastAddr is
  | .decode _ :: is => lastAddr is

/-! ## The table of 10_state.md R31 -/

/-- The commands with a w in the column `CRC`. -/
def writesCrc : Instr → Bool
  | .crcReset => true
  | .crcPush _ => true
  | .crcValue => false
  | .setAddr _ => false
  | .encode _ _ => false
  | .verify _ _ => false
  | .decode _ => false

/-- The commands with a w in the column `CRC_VALID`. -/
def writesCrcValid : Instr → Bool
  | .crcReset => true
  | .crcPush _ => false
  | .crcValue => false
  | .setAddr _ => false
  | .encode _ _ => false
  | .verify _ _ => false
  | .decode _ => false

/-- The commands with a w in the columns `ADDR` and `ADDR_VALID`. -/
def writesAddr : Instr → Bool
  | .crcReset => false
  | .crcPush _ => false
  | .crcValue => false
  | .setAddr _ => true
  | .encode _ _ => false
  | .verify _ _ => false
  | .decode _ => false

/-- The commands with an r in the columns `CRC` and `CRC_VALID`. -/
def readsCrc : Instr → Bool
  | .crcReset => false
  | .crcPush _ => true
  | .crcValue => true
  | .setAddr _ => false
  | .encode _ _ => false
  | .verify _ _ => false
  | .decode _ => false

/-- The commands with an r in the columns `ADDR` and `ADDR_VALID`. -/
def readsAddr : Instr → Bool
  | .crcReset => false
  | .crcPush _ => false
  | .crcValue => false
  | .setAddr _ => false
  | .encode _ _ => true
  | .verify _ _ => false
  | .decode _ => false

/-- The outcomes each command has in the table of 60_exceptions.md R177, as status bytes, on a block
that is not halted. -/
def statusesOf : Instr → List Byte
  | .crcReset => [0x00]
  | .crcPush _ => [0x83, 0x00]
  | .crcValue => [0x83, 0x00]
  | .setAddr _ => [0x00]
  | .encode _ _ => [0x01, 0x84, 0x00]
  | .verify _ _ => [0x02, 0x86, 0x03, 0x00]
  | .decode _ => [0x85, 0x04, 0x00]

/-- The total length of each command's OK response, in bytes (the "total" column of R70). -/
def okTotal : Instr → Nat
  | .crcReset => 1
  | .crcPush _ => 1
  | .crcValue => 3
  | .setAddr _ => 1
  | .encode _ payload => 3 + (payload.length + 4)
  | .verify _ _ => 1
  | .decode frame => 4 + (frame.length - 4)

end Sys2Proof.Safety
end

