-- ==== Sys2Proof/Certificates/Slice0/Obligations.lean ====
section
/-! DEFINITION. The statements for the provers. Each docstring names the rule of spec/ it formalises.
Status bytes, opcodes and cause codes are written as the spec's numbers, not as the model's names. -/

open Sys2Proof Sys2Proof.Machine Sys2Proof.Safety

/-! ## Encodings -/

/-- R64, R67: words written out from the formats of R64 (the "enc" columns of 95_test_vectors.md)
decode to the commands they stand for. -/
def Obligations.SampleWordsDecode : Prop :=
  decodeNext [0x01] = some (.command .crcReset, []) ∧
  decodeNext [0x02, 0x00, 0x02, 0x11, 0x03, 0x03] = some (.command (.crcPush [0x11, 0x03]), [0x03]) ∧
  decodeNext [0x03] = some (.command .crcValue, []) ∧
  decodeNext [0x10, 0x11] = some (.command (.setAddr 0x11), []) ∧
  decodeNext [0x20, 0x03, 0x00, 0x04, 0x00, 0x6B, 0x00, 0x03] =
    some (.command (.encode 0x03 [0x00, 0x6B, 0x00, 0x03]), []) ∧
  decodeNext [0x30, 0x00, 0x01, 0x11, 0x00, 0x04, 0x11, 0x03, 0x00, 0x00] =
    some (.command (.verify [0x11] [0x11, 0x03, 0x00, 0x00]), []) ∧
  decodeNext [0x40, 0x00, 0x04, 0x01, 0x03, 0x21, 0x40] =
    some (.command (.decode [0x01, 0x03, 0x21, 0x40]), []) ∧
  decodeNext [0xFF, 0x03] = some (.illegal 0xFF, []) ∧
  decodeNext [0x30, 0x00, 0x01, 0x11, 0x00] = some (.truncated, [])

/-- R63, R64, R65, R67: decoding an encoded well-formed command gives it back with every operand, and
leaves the bytes after it. -/
def Obligations.DecodeOfEncode : Prop :=
  ∀ (i : Instr) (rest : List Byte), i.WellFormed →
    decodeNext (encode i ++ rest) = some (.command i, rest)

/-- R64, R65, R68, R69: bytes that decode to a command are its encoding followed by the rest, and the
command is well formed. So each byte stream has one meaning. -/
def Obligations.EncodeOfDecode : Prop :=
  ∀ (i : Instr) (bs rest : List Byte), decodeNext bs = some (.command i, rest) →
    i.WellFormed ∧ bs = encode i ++ rest

/-- R66, R67, R173, R174: exactly seven of the 256 opcode bytes are assigned; each of the other 249 is
illegal, and the block that receives one raises Fault(ILLEGAL_OPCODE), cause 0x01. That the rest of
the stream after a reserved byte is dropped is R67's stop and log entry 11. -/
def Obligations.ReservedOpcodesAreIllegal : Prop :=
  let assigned : List Byte := [0x01, 0x02, 0x03, 0x10, 0x20, 0x30, 0x40]
  ((List.range 256).filter fun n => BitVec.ofNat 8 n ∉ assigned).length = 249 ∧
  (∀ (op : Byte) (rest : List Byte), op ∉ assigned →
    decodeNext (op :: rest) = some (.illegal op, [])) ∧
  (∀ (op : Byte) (rest : List Byte), op ∈ assigned →
    ∀ b r, decodeNext (op :: rest) ≠ some (.illegal b, r)) ∧
  (∀ (s : State) (op : Byte) (rest : List Byte) (ms : List HostMove), op ∉ assigned →
    s.fault = 0x00 → s.input = .send (op :: rest) :: ms →
    step s = .next (withResponse { s with input := ms, fault := 0x01 } 0x81 []))

/-- R67, R173: a stream that ends inside a command has the verdict TRUNCATED, and the block raises
Fault(TRUNCATED), cause 0x02. That it does so whatever move of the host follows, the reset signal or
the missing bytes included, is the model's choice, log entry 6: R181 gives such a host no move. -/
def Obligations.CutOffCommandIsTruncated : Prop :=
  ∀ (i : Instr) (k : Nat), i.WellFormed → 0 < k → k < (encode i).length →
    decodeNext ((encode i).take k) = some (.truncated, []) ∧
    ∀ (s : State) (ms : List HostMove), s.fault = 0x00 →
      s.input = .send ((encode i).take k) :: ms →
      step s = .next (withResponse { s with input := ms, fault := 0x02 } 0x82 [])

/-- R67: the stream decoder cuts a stream of encoded commands back into those commands, in order, and
goes on with what follows them. -/
def Obligations.StreamDecodesToItsCommands : Prop :=
  ∀ (is : List Instr) (tail : List Byte), (∀ i ∈ is, i.WellFormed) →
    decodeStream (is.flatMap encode ++ tail) = is.map Verdict.command ++ decodeStream tail

/-- R66, R67, R69: every verdict of the stream decoder is well formed: its commands have operands of at
most 65535 bytes, and it calls only reserved opcode bytes illegal. -/
def Obligations.StreamVerdictsAreWellFormed : Prop :=
  ∀ (s : List Byte) (v : Verdict), v ∈ decodeStream s → verdictWellFormed v = true

/-- R120: the frame of an address, a function code and a payload of at most 252 bytes, with the
checksum of the covered bytes high byte first. -/
def Obligations.FrameOfLayout : Prop :=
  ∀ (a fc : Byte) (p : List Byte), p.length ≤ 252 →
    frameOf a fc p =
      (a :: fc :: p) ++ [(crc16 (a :: fc :: p)).extractLsb' 8 8, (crc16 (a :: fc :: p)).extractLsb' 0 8]

/-! ## One step -/

/-- R44, R67, R181: when the bytes of the host's next move decode to a well-formed command, a step is
that command executed on the state with those bytes taken. -/
def Obligations.StepRunsDecodedCommand : Prop :=
  ∀ (s : State) (bs rest : List Byte) (ms : List HostMove) (i : Instr),
    s.input = .send bs :: ms → decodeNext bs = some (.command i, rest) → i.WellFormed →
    step s = exec i { s with input := if rest = [] then ms else .send rest :: ms }

/-- R200, R181: the reset signal clears CRC_VALID, ADDR_VALID and FAULT, returns no response and takes
nothing else from the host. The values of CRC and ADDR are left open, as R200 leaves them. That the
responses already returned stay in the model's state is its choice, log entry 8. -/
def Obligations.StepTakesResetSignal : Prop :=
  ∀ (s : State) (ms : List HostMove), s.input = .reset :: ms →
    ∃ t, step s = .next t ∧ t.crcValid = false ∧ t.addrValid = false ∧ t.fault = 0x00 ∧
      t.input = ms ∧ t.responses = s.responses

/-- R181, R67: the block may not act without a command, and an empty stream holds none. That such a
step is refused by name is log entry 7, and that empty streams are passed over is log entry 18. -/
def Obligations.StepWithoutCommandIsRefused : Prop :=
  ∀ s : State, (∀ m ∈ s.input, m = .send []) → step s = .refused .noCommand

/-- R44, R47, R49, R67, R184: stepping through a stream executes the verdicts of the stream decoder in
order, each from the state the one before it left, and leaves the host's later moves. Where the
stream ends in TRUNCATED, that this holds whatever those moves are is the model's choice, log entry 6:
R181 gives no move to a command that is split across a reset. -/
def Obligations.StepsOfStreamRunItsVerdicts : Prop :=
  ∀ (s : State) (bs : List Byte) (ms : List HostMove), bs ≠ [] → s.input = .send bs :: ms →
    Host.Core.run core (decodeStream bs).length s =
      runVerdicts (decodeStream bs) { s with input := ms }

/-- R200, R20, R22, R24, R25: what reset leaves where the spec gives a value, with no response returned
yet. It says nothing about CRC and ADDR. -/
def Obligations.ResetLeavesNothingValid : Prop :=
  State.reset.crcValid = false ∧ State.reset.addrValid = false ∧ State.reset.fault = 0x00 ∧
  State.reset.responses = []

/-! ## The commands, one by one -/

/-- R103: CRC_RESET. -/
def Obligations.CrcResetReinitialises : Prop :=
  encode .crcReset = [0x01] ∧
  (∀ s : State, s.fault ≠ 0x00 →
    exec .crcReset s = .next (withResponse s (0x80 ||| s.fault) [])) ∧
  (∀ s : State, s.fault = 0x00 →
    exec .crcReset s = .next (withResponse { s with crc := 0xFFFF, crcValid := true } 0x00 [])) ∧
  (∀ s t : State, s.fault = 0x00 → exec .crcReset s = .next t →
    ∃ u, exec .crcReset t = .next u ∧ u.registers = t.registers)

/-- R104: CRC_PUSH. The clause of two pushes is R104's corner case, which it draws from R102, a rule
the spec marks as derived. The last clause is R104's own example, which the spec marks as derived from
R100; its value rests on R100's loop, general knowledge (log entry 10). That the exec clauses reach
operands over 65535 bytes is log entry 13. -/
def Obligations.CrcPushFoldsBytes : Prop :=
  (∀ d : List Byte, d.length ≤ 65535 →
    encode (.crcPush d) = 0x02 :: BitVec.ofNat 8 (d.length / 256) :: BitVec.ofNat 8 d.length :: d) ∧
  (∀ (d : List Byte) (s : State), s.fault ≠ 0x00 →
    exec (.crcPush d) s = .next (withResponse s (0x80 ||| s.fault) [])) ∧
  (∀ (d : List Byte) (s : State), s.fault = 0x00 → s.crcValid = false →
    exec (.crcPush d) s = .next (withResponse { s with fault := 0x03 } 0x83 [])) ∧
  (∀ (d : List Byte) (s : State), s.fault = 0x00 → s.crcValid = true →
    exec (.crcPush d) s = .next (withResponse { s with crc := d.foldl crcStep s.crc } 0x00 [])) ∧
  (∀ (a b : List Byte) (s t u : State), s.fault = 0x00 → s.crcValid = true →
    exec (.crcPush a) s = .next t → exec (.crcPush b) t = .next u →
    ∃ w, exec (.crcPush (a ++ b)) s = .next w ∧ w.crc = u.crc) ∧
  crcStep 0xFFFF 0x11 = 0x4C7F

/-- R105: CRC_VALUE. The last clause holds the value of R105's own example, which the spec marks as
derived from R101, and that of its corner case. The example's value rests on R100's loop, which the
spec marks as general knowledge (log entry 10); ChecksumCommandsReturnCrc16 runs the commands. -/
def Obligations.CrcValueReturnsAccumulator : Prop :=
  encode .crcValue = [0x03] ∧
  (∀ s : State, s.fault ≠ 0x00 →
    exec .crcValue s = .next (withResponse s (0x80 ||| s.fault) [])) ∧
  (∀ s : State, s.fault = 0x00 → s.crcValid = false →
    exec .crcValue s = .next (withResponse { s with fault := 0x03 } 0x83 [])) ∧
  (∀ s : State, s.fault = 0x00 → s.crcValid = true →
    exec .crcValue s =
      .next (withResponse s 0x00 [s.crc.extractLsb' 8 8, s.crc.extractLsb' 0 8])) ∧
  crc16 [0x11, 0x03, 0x00, 0x6B, 0x00, 0x03] = 0x8776 ∧ crc16 [] = 0xFFFF

/-- R121: SET_ADDR. -/
def Obligations.SetAddrHoldsAddress : Prop :=
  (∀ a : Byte, encode (.setAddr a) = [0x10, a]) ∧
  (∀ (a : Byte) (s : State), s.fault ≠ 0x00 →
    exec (.setAddr a) s = .next (withResponse s (0x80 ||| s.fault) [])) ∧
  (∀ (a : Byte) (s : State), s.fault = 0x00 →
    exec (.setAddr a) s = .next (withResponse { s with addr := a, addrValid := true } 0x00 []))

/-- R122: ENCODE. The length test comes before the address test. The last clause is the frame of
R122's own example, which the spec marks as derived from R120 and R101; its value rests on R100's loop,
general knowledge (log entry 10). R122 gives payloads of up to 65535 bytes; that the exec clauses reach
longer ones is log entry 13. -/
def Obligations.EncodeBuildsFrame : Prop :=
  (∀ (fc : Byte) (p : List Byte), p.length ≤ 65535 →
    encode (.encode fc p) =
      0x20 :: fc :: BitVec.ofNat 8 (p.length / 256) :: BitVec.ofNat 8 p.length :: p) ∧
  (∀ (fc : Byte) (p : List Byte) (s : State), s.fault ≠ 0x00 →
    exec (.encode fc p) s = .next (withResponse s (0x80 ||| s.fault) [])) ∧
  (∀ (fc : Byte) (p : List Byte) (s : State), s.fault = 0x00 → p.length + 4 > 256 →
    exec (.encode fc p) s = .next (withResponse s 0x01 [])) ∧
  (∀ (fc : Byte) (p : List Byte) (s : State), s.fault = 0x00 → p.length + 4 ≤ 256 →
    s.addrValid = false →
    exec (.encode fc p) s = .next (withResponse { s with fault := 0x04 } 0x84 [])) ∧
  (∀ (fc : Byte) (p : List Byte) (s : State), s.fault = 0x00 → p.length + 4 ≤ 256 →
    s.addrValid = true →
    exec (.encode fc p) s =
      .next (withResponse s 0x00
        (BitVec.ofNat 8 ((p.length + 4) / 256) :: BitVec.ofNat 8 (p.length + 4) ::
          frameOf s.addr fc p))) ∧
  frameOf 0x11 0x03 [0x00, 0x6B, 0x00, 0x03] = [0x11, 0x03, 0x00, 0x6B, 0x00, 0x03, 0x87, 0x76]

/-- R140: VERIFY. The length test comes first, and only the first bytes are compared. R140 gives
operands of up to 65535 bytes; that the exec clauses reach longer ones is log entry 13. -/
def Obligations.VerifyChecksLengthThenAddress : Prop :=
  (∀ q r : List Byte, q.length ≤ 65535 → r.length ≤ 65535 →
    encode (.verify q r) =
      0x30 :: BitVec.ofNat 8 (q.length / 256) :: BitVec.ofNat 8 q.length ::
        (q ++ BitVec.ofNat 8 (r.length / 256) :: BitVec.ofNat 8 r.length :: r)) ∧
  (∀ (q r : List Byte) (s : State), s.fault ≠ 0x00 →
    exec (.verify q r) s = .next (withResponse s (0x80 ||| s.fault) [])) ∧
  (∀ (q r : List Byte) (s : State), s.fault = 0x00 → r.length < 4 →
    exec (.verify q r) s = .next (withResponse s 0x02 [])) ∧
  (∀ (q r : List Byte) (s : State), s.fault = 0x00 → 4 ≤ r.length → q = [] →
    exec (.verify q r) s = .next (withResponse { s with fault := 0x06 } 0x86 [])) ∧
  (∀ (q r : List Byte) (s : State), s.fault = 0x00 → 4 ≤ r.length → q ≠ [] → r[0]? ≠ q[0]? →
    exec (.verify q r) s = .next (withResponse s 0x03 [])) ∧
  (∀ (q r : List Byte) (s : State), s.fault = 0x00 → 4 ≤ r.length → q ≠ [] → r[0]? = q[0]? →
    exec (.verify q r) s = .next (withResponse s 0x00 []))

/-- R142 with R141 and the length contract of R143: DECODE. R142 gives frames of up to 65535 bytes;
that the exec clauses reach longer ones is log entry 13. -/
def Obligations.DecodeChecksThenExtracts : Prop :=
  (∀ f : List Byte, f.length ≤ 65535 →
    encode (.decode f) = 0x40 :: BitVec.ofNat 8 (f.length / 256) :: BitVec.ofNat 8 f.length :: f) ∧
  (∀ (f : List Byte) (s : State), s.fault ≠ 0x00 →
    exec (.decode f) s = .next (withResponse s (0x80 ||| s.fault) [])) ∧
  (∀ (f : List Byte) (s : State), s.fault = 0x00 → f.length < 4 ∨ 256 < f.length →
    exec (.decode f) s = .next (withResponse { s with fault := 0x05 } 0x85 [])) ∧
  (∀ (f : List Byte) (s : State), s.fault = 0x00 → 4 ≤ f.length → f.length ≤ 256 →
    (crc16 (f.take (f.length - 2))).toNat ≠
      (f.getD (f.length - 2) 0).toNat * 256 + (f.getD (f.length - 1) 0).toNat →
    exec (.decode f) s = .next (withResponse s 0x04 [])) ∧
  (∀ (f : List Byte) (s : State), s.fault = 0x00 → 4 ≤ f.length → f.length ≤ 256 →
    (crc16 (f.take (f.length - 2))).toNat =
      (f.getD (f.length - 2) 0).toNat * 256 + (f.getD (f.length - 1) 0).toNat →
    exec (.decode f) s =
      .next (withResponse s 0x00
        (f.getD 1 0 :: BitVec.ofNat 8 ((f.length - 4) / 256) :: BitVec.ofNat 8 (f.length - 4) ::
          (f.drop 2).take (f.length - 4))))

/-! ## The checksum -/

/-- R100: the bit-serial loop, with 0xA001 the bit reversal of 0x8005. The spec marks the loop as
general knowledge, not in its source (log entry 10). -/
def Obligations.CrcStepIsShiftLoop : Prop :=
  (∀ (c : Word) (b : Byte),
    crcStep c b =
      (fun c : Word => if c.getLsbD 0 = true then (c >>> 1) ^^^ 0xA001 else c >>> 1)^[8]
        (c ^^^ b.setWidth 16)) ∧
  BitVec.reverse (0xA001 : Word) = 0x8005

/-- R100, R101: the result of V-CRC-1, the published check value of V-CRC-9, two of the five rows of
V-CRC-4 (`01 03 00 00 00 01` and `11 01 00 13 00 25`), three of the ten of V-CRC-3 (`FF FF`, `FF`,
`80`), and V-CRC-6. They rest on R100's loop, which the spec marks as general knowledge (log entry
10). -/
def Obligations.ChecksumValues : Prop :=
  crcStep 0xFFFF 0x11 = 0x4C7F ∧
  crc16 [0x31, 0x32, 0x33, 0x34, 0x35, 0x36, 0x37, 0x38, 0x39] = 0x4B37 ∧
  crc16 [0x01, 0x03, 0x00, 0x00, 0x00, 0x01] = 0x0A84 ∧
  crc16 [0x11, 0x01, 0x00, 0x13, 0x00, 0x25] = 0x840E ∧
  crc16 [0xFF, 0xFF] = 0x0000 ∧ crc16 [0xFF] = 0x00FF ∧ crc16 [0x80] = 0xE0BE ∧
  crc16 [0x11, 0x03, 0x00, 0x6B, 0x00, 0x03, 0x87, 0x76] = 0x1484

/-- R102: the running fold law, which the spec marks as derived from R100 and R101. Totality is the
type. -/
def Obligations.RunningFold : Prop :=
  (∀ (c : Word) (a b : List Byte), crcFold (crcFold c a) b = crcFold c (a ++ b)) ∧
  (∀ s : List Byte, crc16 s = crcFold 0xFFFF s) ∧
  (∀ (c : Word) (b : Byte), crcFold c [b] = crcStep c b)

/-- R100, R101, R145 (the affine law of V-DEC-7): over sequences of one length, the checksum of an xor
is the checksum xor the fold of the difference from zero. -/
def Obligations.ChecksumIsAffine : Prop :=
  ∀ x e : List Byte, x.length = e.length →
    crc16 (List.zipWith (· ^^^ ·) x e) = crc16 x ^^^ crcFold 0x0000 e

/-- R106: CRC_RESET, CRC_PUSH, CRC_VALUE return the checksum that ENCODE places in a frame over the
same bytes and that DECODE recomputes. The spec marks R106 as derived from R101, R103, R104 and R105. -/
def Obligations.ChecksumCommandsReturnCrc16 : Prop :=
  (∀ (d : List Byte) (s : State), s.fault = 0x00 →
    ∃ t, runCommands [.crcReset, .crcPush d, .crcValue] s = .next t ∧
      t.responses = s.responses ++
        [⟨0x00, []⟩, ⟨0x00, []⟩, ⟨0x00, [(crc16 d).extractLsb' 8 8, (crc16 d).extractLsb' 0 8]⟩]) ∧
  (∀ (a fc : Byte) (p : List Byte) (s : State), s.fault = 0x00 → p.length ≤ 252 →
    ∃ t, runCommands [.setAddr a, .encode fc p] s = .next t ∧
      ∃ n, t.responses = s.responses ++
        [⟨0x00, []⟩, ⟨0x00, n ++ (a :: fc :: p) ++
          [(crc16 (a :: fc :: p)).extractLsb' 8 8, (crc16 (a :: fc :: p)).extractLsb' 0 8]⟩] ∧
        n.length = 2) ∧
  (∀ (d : List Byte) (x y : Byte) (s : State), s.fault = 0x00 → 2 ≤ d.length → d.length ≤ 254 →
    ∃ t r, exec (.decode (d ++ [x, y])) s = .next t ∧ t.responses = s.responses ++ [r] ∧
      (r.status = 0x00 ↔ (crc16 d).toNat = x.toNat * 256 + y.toNat))

/-! ## Frames through the commands -/

/-- R124: the parts of the frame an OK ENCODE returns. The spec marks R124 as derived from R120 and
R122. -/
def Obligations.EncodedFrameParts : Prop :=
  ∀ (fc : Byte) (p : List Byte) (s : State), s.fault = 0x00 → s.addrValid = true →
    p.length ≤ 252 →
    ∃ t f, exec (.encode fc p) s = .next t ∧
      t.responses = s.responses ++
        [⟨0x00, BitVec.ofNat 8 (f.length / 256) :: BitVec.ofNat 8 f.length :: f⟩] ∧
      f.length = p.length + 4 ∧ f[0]? = some s.addr ∧ f[1]? = some fc ∧
      (f.drop 2).take p.length = p ∧
      (f.getD (p.length + 2) 0).toNat * 256 + (f.getD (p.length + 3) 0).toNat =
        (crc16 (f.take (p.length + 2))).toNat

/-- R144: decoding the frame of an address, a function code and a payload of at most 252 bytes gives
the function code and the payload back. The spec marks R144 as derived from R141, R142 and R120. -/
def Obligations.DecodeOfFrameRoundTrip : Prop :=
  ∀ (a fc : Byte) (p : List Byte) (s : State), s.fault = 0x00 → p.length ≤ 252 →
    exec (.decode (frameOf a fc p)) s =
      .next (withResponse s 0x00
        (fc :: BitVec.ofNat 8 (p.length / 256) :: BitVec.ofNat 8 p.length :: p))

/-- R145: a frame that ENCODE can return, with exactly one bit inverted at any offset, is answered
CHECKSUM_MISMATCH. The spec marks R145 as derived from R141, R142 and R100. -/
def Obligations.SingleBitErrorIsDetected : Prop :=
  ∀ (a fc : Byte) (p : List Byte) (k j : Nat) (s : State), s.fault = 0x00 → p.length ≤ 252 →
    k < (frameOf a fc p).length → j < 8 →
    exec (.decode (flipBit (frameOf a fc p) k j)) s = .next (withResponse s 0x04 [])

/-- R146: the laws of VERIFY, and that VERIFY and DECODE answer the same in either order when neither
raises a fault. The spec marks R146 as derived from R140 and R142. -/
def Obligations.VerifyLawsAndIndependence : Prop :=
  (∀ (q r : List Byte) (s : State), s.fault = 0x00 → r.length ≤ 3 →
    exec (.verify q r) s = .next (withResponse s 0x02 [])) ∧
  (∀ (q r : List Byte) (s : State), s.fault = 0x00 → 4 ≤ r.length → 1 ≤ q.length →
    (exec (.verify q r) s = .next (withResponse s 0x03 []) ↔ r[0]? ≠ q[0]?) ∧
    (exec (.verify q r) s = .next (withResponse s 0x00 []) ↔ r[0]? = q[0]?)) ∧
  (∀ (q r f : List Byte) (s t u : State), s.fault = 0x00 → exec (.verify q r) s = .next t →
    exec (.decode f) t = .next u → u.fault = 0x00 →
    ∃ rv rd t' u', t.responses = s.responses ++ [rv] ∧ u.responses = t.responses ++ [rd] ∧
      exec (.decode f) s = .next t' ∧ t'.responses = s.responses ++ [rd] ∧
      exec (.verify q r) t' = .next u' ∧ u'.responses = t'.responses ++ [rv])

/-- R121, R122, R140, R142, R144, R201: one whole exchange. From any unfaulted state, SET_ADDR,
ENCODE, VERIFY of the frame against itself and DECODE of it all answer OK, DECODE gives the function
code and the payload back, and the run ends well. -/
def Obligations.ExchangeEndsWell : Prop :=
  ∀ (a fc : Byte) (p : List Byte) (s : State), s.fault = 0x00 → p.length ≤ 252 →
    ∃ t n f, runCommands [.setAddr a, .encode fc p, .verify f f, .decode f] s = .next t ∧
      t.responses = s.responses ++
        [⟨0x00, []⟩, ⟨0x00, n ++ f⟩, ⟨0x00, []⟩,
         ⟨0x00, fc :: BitVec.ofNat 8 (p.length / 256) :: BitVec.ofNat 8 p.length :: p⟩] ∧
      n.length = 2 ∧ EndsWell t ∧ t.crc = s.crc ∧ t.crcValid = s.crcValid

/-! ## Faults -/

/-- R174: a verdict that raises a fault does exactly the fault entry: the cause, one of 0x01 to 0x06,
goes into FAULT, the response is 0x80 with the cause, and nothing else changes. -/
def Obligations.FaultEntryIsPrecise : Prop :=
  ∀ (v : Verdict) (s t : State), s.fault = 0x00 → execVerdict v s = .next t → t.fault ≠ 0x00 →
    t = withResponse { s with fault := t.fault } (0x80 ||| t.fault) [] ∧
    1 ≤ t.fault.toNat ∧ t.fault.toNat ≤ 6

/-- R175, R177: a halted block answers every verdict, CRC_RESET included, with 0x80 and its fault, and
changes no register. That ILLEGAL and TRUNCATED are among them is log entry 12. -/
def Obligations.HaltedBlockRepeatsFault : Prop :=
  ∀ (v : Verdict) (s : State), s.fault ≠ 0x00 →
    execVerdict v s = .next (withResponse s (0x80 ||| s.fault) [])

/-- R25, R175, R176: a step from a halted block either takes the reset signal, which clears FAULT, or
repeats the fault and leaves every register. That the reset signal leaves the responses already
returned is the model's choice, log entry 8. -/
def Obligations.OnlyResetClearsFault : Prop :=
  ∀ s t : State, s.fault ≠ 0x00 → step s = .next t →
    (∃ ms, fetch s.input = .reset ms ∧ t.fault = 0x00 ∧ t.responses = s.responses) ∨
    (t.registers = s.registers ∧ t.responses = s.responses ++ [⟨0x80 ||| s.fault, []⟩])

/-- R173: each command raises only its own causes, under the conditions the table gives, and each of
the verdicts its own. No other cause is raised. -/
def Obligations.FaultCausesAndConditions : Prop :=
  ∀ (v : Verdict) (s t : State), s.fault = 0x00 → execVerdict v s = .next t →
    (t.fault = 0x01 ↔ ∃ op, v = .illegal op) ∧
    (t.fault = 0x02 ↔ v = .truncated) ∧
    (t.fault = 0x03 ↔
      s.crcValid = false ∧ (v = .command .crcValue ∨ ∃ d, v = .command (.crcPush d))) ∧
    (t.fault = 0x04 ↔ s.addrValid = false ∧ ∃ fc p, v = .command (.encode fc p) ∧ p.length ≤ 252) ∧
    (t.fault = 0x05 ↔ ∃ f, v = .command (.decode f) ∧ (f.length < 4 ∨ 256 < f.length)) ∧
    (t.fault = 0x06 ↔ ∃ r, v = .command (.verify [] r) ∧ 4 ≤ r.length) ∧
    t.fault.toNat ≤ 6

/-! ## Frames: what each command leaves unchanged -/

/-- R31, writes: a command changes no register outside its w entries, except FAULT, which it changes
only from 0x00. It leaves the host's later moves and the model's draw counter. -/
def Obligations.RegistersWritten : Prop :=
  ∀ (i : Instr) (s t : State), exec i s = .next t →
    (writesCrc i = false → t.crc = s.crc) ∧
    (writesCrcValid i = false → t.crcValid = s.crcValid) ∧
    (writesAddr i = false → t.addr = s.addr ∧ t.addrValid = s.addrValid) ∧
    (s.fault ≠ 0x00 → t.registers = s.registers) ∧
    t.input = s.input ∧ t.draws = s.draws

/-- R31, reads: from two states that agree on FAULT and on the registers a command reads, the command
answers the same, ends with the same FAULT, and either writes the same value into a register or leaves
it in both. -/
def Obligations.RegistersRead : Prop :=
  ∀ (i : Instr) (s s' t t' : State), s.fault = s'.fault →
    (readsCrc i = true → s.crc = s'.crc ∧ s.crcValid = s'.crcValid) →
    (readsAddr i = true → s.addr = s'.addr ∧ s.addrValid = s'.addrValid) →
    exec i s = .next t → exec i s' = .next t' →
    t.responses.getLast? = t'.responses.getLast? ∧ t.fault = t'.fault ∧
    (t.crc = t'.crc ∨ (t.crc = s.crc ∧ t'.crc = s'.crc)) ∧
    (t.crcValid = t'.crcValid ∨ (t.crcValid = s.crcValid ∧ t'.crcValid = s'.crcValid)) ∧
    (t.addr = t'.addr ∨ (t.addr = s.addr ∧ t'.addr = s'.addr)) ∧
    (t.addrValid = t'.addrValid ∨ (t.addrValid = s.addrValid ∧ t'.addrValid = s'.addrValid))

/-- R22, R24, R31: CRC_VALID and ADDR_VALID are set only by CRC_RESET and SET_ADDR and cleared only by
the reset signal. -/
def Obligations.ValidBitsSetAndCleared : Prop :=
  ∀ s t : State, step s = .next t →
    (s.crcValid = true → t.crcValid = true ∨ ∃ ms, fetch s.input = .reset ms) ∧
    (s.addrValid = true → t.addrValid = true ∨ ∃ ms, fetch s.input = .reset ms) ∧
    (s.crcValid = false → t.crcValid = true →
      ∃ ms, fetch s.input = .verdict (.command .crcReset) ms) ∧
    (s.addrValid = false → t.addrValid = true →
      ∃ a ms, fetch s.input = .verdict (.command (.setAddr a)) ms)

/-- R47: CRC_RESET and SET_ADDR leave the same registers when issued twice; CRC_VALUE, ENCODE, VERIFY
and DECODE change no register but FAULT; CRC_PUSH is not idempotent. The spec marks R47 as
derived from R44 and R31. -/
def Obligations.IdempotentCommands : Prop :=
  (∀ (i : Instr) (s t u : State), i = .crcReset ∨ (∃ a, i = .setAddr a) → exec i s = .next t →
    exec i t = .next u → u.registers = t.registers) ∧
  (∀ (i : Instr) (s t : State), writesCrc i = false → writesAddr i = false → exec i s = .next t →
    t.registers = { s.registers with fault := t.fault }) ∧
  (∃ (d : List Byte) (s t u : State), exec (.crcPush d) s = .next t ∧
    exec (.crcPush d) t = .next u ∧ u.registers ≠ t.registers)

/-- R27, R42, R70: a step that is not the reset signal adds exactly one response after the earlier
ones, which it leaves as they are, and moves the command index on by exactly 1. That the reset signal leaves
the responses already returned is the model's choice, log entry 8. -/
def Obligations.OneResponsePerCommand : Prop :=
  ∀ s t : State, step s = .next t →
    (∃ ms, fetch s.input = .reset ms ∧ t.responses = s.responses) ∨
    (∃ v ms r, fetch s.input = .verdict v ms ∧ t.responses = s.responses ++ [r] ∧
      t.commandIndex = s.commandIndex + 1)

/-- R70, R171, R177: on an unfaulted block a command answers one response, with one of the statuses its
row allows, of the total length of R70: the status byte alone unless the status is OK. -/
def Obligations.StatusesOfEachCommand : Prop :=
  ∀ (i : Instr) (s : State), s.fault = 0x00 →
    ∃ t r, exec i s = .next t ∧ t.responses = s.responses ++ [r] ∧ r.status ∈ statusesOf i ∧
      (r.status = 0x00 → (responseBytes r).length = okTotal i) ∧
      (r.status ≠ 0x00 → responseBytes r = [r.status])

/-! ## Runs -/

/-- R203, R30: along commands without CRC_RESET that end without a fault, CRC ends as the fold of all
the bytes pushed, whatever ENCODE, DECODE and the others did between. After a CRC_RESET that is the
checksum of those bytes. -/
def Obligations.AccumulatorCarriesOver : Prop :=
  (∀ (is : List Instr) (s t : State), Instr.crcReset ∉ is → runCommands is s = .next t →
    t.fault = 0x00 → t.crc = crcFold s.crc (pushedBytes is)) ∧
  (∀ (is : List Instr) (s t : State), Instr.crcReset ∉ is →
    runCommands (.crcReset :: is) s = .next t → t.fault = 0x00 → t.crc = crc16 (pushedBytes is))

/-- R204: along commands that end without a fault, ADDR ends as the operand of the last SET_ADDR, or
as it was where there was none. -/
def Obligations.AddressCarriesOver : Prop :=
  ∀ (is : List Instr) (s t : State), runCommands is s = .next t → t.fault = 0x00 →
    t.addr = (lastAddr is).getD s.addr

/-- R184, R170, R174, R175: a run of verdicts from an unfaulted state ends well exactly when none of
its responses has a status of 0x80 or above. -/
def Obligations.RunEndsWellWithoutFaultStatus : Prop :=
  ∀ (vs : List Verdict) (s : State), s.fault = 0x00 →
    ∃ t rs, runVerdicts vs s = .next t ∧ t.responses = s.responses ++ rs ∧ rs.length = vs.length ∧
      (EndsWell t ↔ ∀ r ∈ rs, r.status.toNat < 0x80)

/-- R184, R69, R67, R70: every finite list of well-formed commands, ILLEGAL and TRUNCATED among them, is
a run from the reset state. What is observed of it is one response a command and the final registers,
and it ends well exactly when no response is a fault status. The verdicts of a stream are such a list,
and stepping from the reset state through the stream, sent as one move, is that run. The host's move
and the list of responses as parts of the state are log entry 4. -/
def Obligations.RunsStartFromReset : Prop :=
  (∀ vs : List Verdict, RunWellFormed vs →
    ∃ t, IsRun vs t ∧ (observation t).1.length = vs.length ∧ (observation t).2 = t.registers ∧
      (EndsWell t ↔ ∀ r ∈ (observation t).1, r.status.toNat < 0x80)) ∧
  (∀ bs : List Byte, bs ≠ [] →
    ∃ t, IsRun (decodeStream bs) t ∧
      Host.Core.run core (decodeStream bs).length { State.reset with input := [.send bs] } = .next t)

/-! ## Invariants -/

/-- R25, R70, R171, R174, R175: the invariant holds at reset. -/
def Obligations.ResetMeetsInvariant : Prop := Inv State.reset

/-- R25, R70, R171, R173, R174, R175: every step keeps the invariant: FAULT holds a legal value, every
response has a legal status and carries data only with OK, and a halted block's last response is its
fault. -/
def Obligations.StepKeepsInvariant : Prop :=
  ∀ s t : State, Inv s → step s = .next t → Inv t

/-- R22, R24, R200: no response depends on a register that is not valid. Two states that differ only
in such registers, and in the model's draw counter, step to such states again, and a step refused from
one is refused from the other. So the values that log entries 1 and 2 give CRC and ADDR at reset are
never seen. -/
def Obligations.InvalidRegistersAreUnobservable : Prop :=
  (∀ s s' t : State, SameToHost s s' → step s = .next t →
    ∃ t', step s' = .next t' ∧ SameToHost t t') ∧
  (∀ (s s' : State) (r : Refusal), SameToHost s s' → step s = .refused r → step s' = .refused r)

/-! ## Assembler text -/

/-- R71: the line that writes a well-formed command in the syntax of R71 assembles to that command.
Upper-case digits and single spaces are the form log entry 14 names. -/
def Obligations.AssemblerReadsWrittenCommands : Prop :=
  ∀ i : Instr, i.WellFormed → assembleLine (asmText i) = some [i]

/-- R71, R72: a line with CRC_OF or ENCODE_TO assembles to the commands it stands for, and the third
response of CRC_OF carries the checksum of its bytes. The spec marks the last as derived from R103,
R104 and R105; the spacing of the lines is the form log entry 14 names. -/
def Obligations.PseudoInstructionsExpand : Prop :=
  (∀ d : List Byte, d.length ≤ 65535 →
    assembleLine (['C', 'R', 'C', '_', 'O', 'F', ' '] ++ seqText d) =
      some [.crcReset, .crcPush d, .crcValue]) ∧
  (∀ (a fc : Byte) (p : List Byte), p.length ≤ 65535 →
    assembleLine (['E', 'N', 'C', 'O', 'D', 'E', '_', 'T', 'O', ' '] ++
        (byteText a ++ [',', ' '] ++ (byteText fc ++ [',', ' '] ++ seqText p))) =
      some [.setAddr a, .encode fc p]) ∧
  (∀ (d : List Byte) (s : State), s.fault = 0x00 →
    ∃ t, runCommands [.crcReset, .crcPush d, .crcValue] s = .next t ∧
      t.responses.getLast? =
        some ⟨0x00, [(crc16 d).extractLsb' 8 8, (crc16 d).extractLsb' 0 8]⟩)
end

