-- ==== Sys2Proof/Laws/Checksum.lean ====
section
/-! SUPPORT. The checksum function is linear in its data and keeps a difference alive (40_checksum.md
R100 to R102, 42_decoder.md R145), and the checksum bytes of a frame. -/

namespace Sys2Proof.Laws

open Sys2Proof.Machine

/-! ## One shift -/

/-- Xors of four words may be paired the other way. -/
theorem xor_four (a b x y : Word) : (a ^^^ b) ^^^ (x ^^^ y) = (a ^^^ x) ^^^ (b ^^^ y) := by
  rw [BitVec.xor_assoc, BitVec.xor_assoc, ← BitVec.xor_assoc b, BitVec.xor_comm b x,
    BitVec.xor_assoc x]

/-- The shift as one expression. -/
theorem crcShift_eq (c : Word) :
    crcShift c = (c >>> 1) ^^^ (if c.getLsbD 0 then Config.crcPoly else 0) := by
  unfold crcShift
  split <;> simp

/-- The shift of a zero accumulator. -/
@[simp] theorem crcShift_zero : crcShift 0#16 = 0#16 := by decide

/-- The shift distributes over xor. -/
theorem crcShift_xor (c d : Word) : crcShift (c ^^^ d) = crcShift c ^^^ crcShift d := by
  simp only [crcShift_eq, BitVec.ushiftRight_xor_distrib, BitVec.getLsbD_xor]
  rw [xor_four (c >>> 1)]
  congr 1
  cases c.getLsbD 0 <;> cases d.getLsbD 0 <;> simp

/-- The shift loses nothing: only zero shifts to zero, since the polynomial has bit 15 set. -/
theorem crcShift_eq_zero {c : Word} (h : crcShift c = 0) : c = 0 := by
  have h15 : (crcShift c).getLsbD 15 = c.getLsbD 0 := by
    rw [crcShift_eq]
    cases hc : c.getLsbD 0 <;> simp [Config.crcPoly]
  have h0 : c.getLsbD 0 = false := by rw [← h15, h]; rfl
  have hs : c >>> 1 = 0 := by
    rw [crcShift_eq, h0] at h
    simpa using h
  apply BitVec.eq_of_getLsbD_eq
  intro i hi
  cases i with
  | zero => simpa using h0
  | succ k =>
    have hk : (c >>> 1).getLsbD k = false := by rw [hs]; simp
    simpa [Nat.add_comm] using hk

/-! ## Several shifts -/

theorem crcShifts_zero (k : Nat) : crcShifts k 0#16 = 0#16 := by
  induction k with
  | zero => rfl
  | succ k ih => simpa [crcShifts] using ih

theorem crcShifts_xor (k : Nat) (c d : Word) :
    crcShifts k (c ^^^ d) = crcShifts k c ^^^ crcShifts k d := by
  induction k generalizing c d with
  | zero => rfl
  | succ k ih => simp only [crcShifts, crcShift_xor, ih]

theorem crcShifts_eq_zero {k : Nat} {c : Word} (h : crcShifts k c = 0) : c = 0 := by
  induction k generalizing c with
  | zero => exact h
  | succ k ih => exact crcShift_eq_zero (ih h)

/-! ## One byte and a byte sequence -/

/-- Folding a byte is linear in the accumulator and the byte together. -/
theorem crcStep_xor (c d : Word) (a b : Byte) :
    crcStep (c ^^^ d) (a ^^^ b) = crcStep c a ^^^ crcStep d b := by
  unfold crcStep
  rw [← crcShifts_xor]
  congr 1
  rw [BitVec.setWidth_xor, xor_four]

/-- Folding a zero byte keeps a non-zero accumulator non-zero. -/
theorem crcStep_zero_byte {c : Word} (h : crcStep c 0 = 0) : c = 0 := by
  have := crcShifts_eq_zero h
  simpa using this

/-- Folding a non-zero byte into a zero accumulator gives a non-zero one. -/
theorem crcStep_zero_acc {b : Byte} (h : crcStep 0 b = 0) : b = 0 := by
  have h' := crcShifts_eq_zero h
  apply BitVec.eq_of_getLsbD_eq
  intro i hi
  have := congrArg (fun w : Word => w.getLsbD i) h'
  have hi' : i < 16 := by omega
  simpa [hi'] using this

@[simp] theorem crcFold_nil (c : Word) : crcFold c [] = c := rfl

@[simp] theorem crcFold_cons (c : Word) (b : Byte) (s : List Byte) :
    crcFold c (b :: s) = crcFold (crcStep c b) s := rfl

/-- The running fold law of R102. -/
theorem crcFold_append (c : Word) (a b : List Byte) :
    crcFold c (a ++ b) = crcFold (crcFold c a) b := by
  simp [crcFold, List.foldl_append]

/-- `value` returns the accumulator as it stands (R101). -/
@[simp] theorem crcOutput_eq (c : Word) : crcOutput c = c := by
  simp [crcOutput, Config.crcXorOut]

/-- Two different accumulators stay different over the same bytes. -/
theorem crcFold_injective {c d : Word} {s : List Byte} (h : crcFold c s = crcFold d s) :
    c = d := by
  induction s generalizing c d with
  | nil => exact h
  | cons b s ih =>
    have hs : crcStep c b = crcStep d b := ih h
    have hx : crcStep (c ^^^ d) 0 = 0 := by
      have := crcStep_xor c d b b
      rw [BitVec.xor_self, hs, BitVec.xor_self] at this
      exact this
    exact BitVec.xor_eq_zero_iff.mp (crcStep_zero_byte hx)

/-- Two different bytes in one place, with the same bytes before and after, give different folds. -/
theorem crcFold_byte_injective {c : Word} {a b : Byte} {pre post : List Byte}
    (h : crcFold c (pre ++ a :: post) = crcFold c (pre ++ b :: post)) : a = b := by
  simp only [crcFold_append, crcFold_cons] at h
  have hs := crcFold_injective h
  have hx : crcStep 0 (a ^^^ b) = 0 := by
    have := crcStep_xor (crcFold c pre) (crcFold c pre) a b
    rw [BitVec.xor_self, hs, BitVec.xor_self] at this
    exact this
  exact BitVec.xor_eq_zero_iff.mp (crcStep_zero_acc hx)

/-! ## The two bytes of a word -/

/-- A word is its high byte and its low byte (R10). -/
theorem wordOf_bytes (v : Word) : wordOf (hiByte v) (loByte v) = v := by
  apply BitVec.eq_of_getLsbD_eq
  intro i hi
  simp only [wordOf, hiByte, loByte, BitVec.getLsbD_append, BitVec.getLsbD_extractLsb']
  by_cases h : i < 8
  · simp [h]
  · have h1 : i - 8 < 8 := by omega
    have h2 : 8 + (i - 8) = i := by omega
    simp [h, h1, h2]

/-- The value of a word of two bytes: `hi · 256 + lo` (R43). -/
theorem wordOf_toNat (hi lo : Byte) : (wordOf hi lo).toNat = hi.toNat * 256 + lo.toNat := by
  have := lo.isLt
  rw [wordOf, BitVec.toNat_append, Nat.shiftLeft_eq, Nat.mul_comm,
    ← Nat.two_pow_add_eq_or_of_lt this]

/-- Two words with the same bytes are equal, and the other way round. -/
theorem wordOf_inj {a b c d : Byte} (h : wordOf a b = wordOf c d) : a = c ∧ b = d := by
  have hn := congrArg BitVec.toNat h
  rw [wordOf_toNat, wordOf_toNat] at hn
  have h1 := a.isLt; have h2 := b.isLt; have h3 := c.isLt; have h4 := d.isLt
  constructor <;> apply BitVec.eq_of_toNat_eq <;> omega

/-- The checksum bytes of a frame, high byte first (R43). -/
theorem checksumBytes_eq (v : Word) : checksumBytes v = [hiByte v, loByte v] := rfl

/-- The checksum two bytes embed, high byte first (R43). -/
theorem checksumOfBytes_eq (a b : Byte) : checksumOfBytes a b = wordOf a b := rfl

/-! ## Frames -/

/-- The length of a frame (R62). -/
theorem frameOf_length (a fc : Byte) (p : List Byte) : (frameOf a fc p).length = p.length + 4 := by
  simp [frameOf, coveredBytes, checksumBytes_eq]

/-- The bytes a frame's checksum covers. -/
theorem recomputed_covered (f : List Byte) (x y : Byte) : recomputed (f ++ [x, y]) = crc16 f := by
  simp [recomputed, slice]

/-- The checksum a frame's last two bytes embed. -/
theorem embedded_covered (f : List Byte) (x y : Byte) : embedded (f ++ [x, y]) = wordOf x y := by
  simp [embedded, byteAt, checksumOfBytes_eq, List.getD_eq_getElem?_getD]

/-- A frame of at least two bytes is what its checksum covers and two more bytes. -/
theorem frame_split {f : List Byte} (h : 2 ≤ f.length) :
    ∃ g x y, f = g ++ [x, y] ∧ g.length = f.length - 2 := by
  refine ⟨f.take (f.length - 2), f[f.length - 2], f[f.length - 1], ?_, by simp⟩
  have hd : f.drop (f.length - 2) = [f[f.length - 2], f[f.length - 1]] := by
    rw [List.drop_eq_getElem_cons (by omega), List.drop_eq_getElem_cons (by omega)]
    have : f.length - 2 + 1 = f.length - 1 := by omega
    simp only [this]
    rw [List.drop_eq_nil_of_le (by omega)]
  rw [← hd, List.take_append_drop]

end Sys2Proof.Laws
end

