-- ==== Sys2Proof/Laws/Decode.lean ====
section
/-! SUPPORT. The stream decoder and the encoder, field by field (30_encoding.md R63 to R67). -/

namespace Sys2Proof.Laws

/-! ## Well-formedness -/

/-- A sequence that a length field can announce has at most 65535 bytes (R69). -/
@[simp] theorem fitsLen16_iff (s : List Byte) : fitsLen16 s = true ↔ s.length ≤ 65535 :=
  decide_eq_true_iff

/-! ## Opcodes -/

/-- An assigned opcode byte selects its opcode. -/
@[simp] theorem opcodeOf_byte (o : Opcode) : opcodeOf o.byte = some o := by
  cases o <;> decide

/-- Only its own byte selects an opcode. -/
theorem opcodeOf_some {b : Byte} {o : Opcode} (h : opcodeOf b = some o) : b = o.byte := by
  have := List.find?_some h
  simpa using (beq_iff_eq.mp this).symm

/-- A byte that is no row's opcode selects none (R66). -/
theorem opcodeOf_none_iff {b : Byte} : opcodeOf b = none ↔ ∀ o : Opcode, b ≠ o.byte := by
  constructor
  · intro h o hb
    rw [hb, opcodeOf_byte] at h
    cases h
  · intro h
    cases hb : opcodeOf b with
    | none => rfl
    | some o => exact absurd (opcodeOf_some hb) (h o)

/-! ## Operand fields -/

/-- A len16 field holds the length it was made from (R63). -/
theorem len16Value_bytes {n : Nat} (h : n ≤ 65535) :
    len16Value (BitVec.ofNat 8 (n / 256)) (BitVec.ofNat 8 n) = n := by
  simp only [len16Value, BitVec.toNat_ofNat]
  omega

/-- A len16 field is made of the two bytes it was read from (R63). -/
theorem len16Bytes_value (hi lo : Byte) : len16Bytes (len16Value hi lo) = [hi, lo] := by
  have h1 := hi.isLt
  have h2 := lo.isLt
  simp only [len16Bytes, len16Value, List.cons.injEq, and_true]
  constructor <;> apply BitVec.eq_of_toNat_eq <;> simp only [BitVec.toNat_ofNat] <;> omega

/-- A len16 field is at most 65535. -/
theorem len16Value_le (hi lo : Byte) : len16Value hi lo ≤ 65535 := by
  have h1 := hi.isLt
  have h2 := lo.isLt
  unfold len16Value
  omega

/-- Reading exactly the bytes of a sequence. -/
theorem readBytes_append (s rest : List Byte) :
    readBytes s.length (s ++ rest) = some (s, rest) := by
  simp [readBytes]

/-- What a bytes[n] field that can be read looks like. -/
theorem readBytes_some {n : Nat} {s a rest : List Byte} (h : readBytes n s = some (a, rest)) :
    s = a ++ rest ∧ a.length = n := by
  unfold readBytes at h
  split at h
  · cases h
    rename_i hn
    exact ⟨(List.take_append_drop _ _).symm, by simp [hn]⟩
  · cases h

/-- Reading an encoded byte sequence gives it back (R63). -/
theorem readSeq_encodeSeq {s : List Byte} (h : s.length ≤ 65535) (rest : List Byte) :
    readSeq (encodeSeq s ++ rest) = some (s, rest) := by
  simp [readSeq, encodeSeq, len16Bytes, readLen16, len16Value_bytes h, readBytes_append]

/-- What a byte sequence that can be read looks like (R63). -/
theorem readSeq_some {s a rest : List Byte} (h : readSeq s = some (a, rest)) :
    s = encodeSeq a ++ rest ∧ a.length ≤ 65535 := by
  unfold readSeq at h
  match s, h with
  | hi :: lo :: tail, h =>
    obtain ⟨h1, h2⟩ := readBytes_some h
    subst h1
    refine ⟨?_, h2 ▸ len16Value_le hi lo⟩
    simp [encodeSeq, h2, len16Bytes_value]

/-- The length of an encoded byte sequence. -/
@[simp] theorem encodeSeq_length (s : List Byte) : (encodeSeq s).length = 2 + s.length := by
  simp [encodeSeq, len16Bytes]
  omega

/-- The length of a command (R64). -/
theorem encode_length (i : Instr) : (encode i).length = i.encodedLength := by
  cases i <;> simp [encode, Instr.encodedLength] <;> omega

/-- A command is never empty. -/
theorem encode_ne_nil (i : Instr) : encode i ≠ [] := by
  cases i <;> simp [encode]

/-! ## The stream decoder -/

/-- Only the empty stream has no verdict (R67). -/
theorem decodeNext_eq_none_iff {s : List Byte} : decodeNext s = none ↔ s = [] := by
  cases s with
  | nil => simp [decodeNext]
  | cons op s =>
    simp only [decodeNext]
    split
    · simp
    · split <;> simp

/-- The head of an encoded command selects its opcode, and its operand fields are read back. -/
theorem decodeNext_of_operands {o : Opcode} {s rest : List Byte} {i : Instr}
    (h : decodeOperands o s = some (i, rest)) :
    decodeNext (o.byte :: s) = some (.command i, rest) := by
  simp [decodeNext, h]

/-- Every operand-field reader leaves a suffix of what it was given. -/
theorem decodeOperands_suffix {o : Opcode} {s rest : List Byte} {i : Instr}
    (h : decodeOperands o s = some (i, rest)) : rest.length ≤ s.length := by
  have seq : ∀ {s a rest : List Byte}, readSeq s = some (a, rest) → rest.length ≤ s.length := by
    intro s a rest h
    rw [(readSeq_some h).1]
    simp
  have imm : ∀ {s rest : List Byte} {b : Byte},
      readImm8 s = some (b, rest) → rest.length ≤ s.length := by
    intro s rest b h
    cases s with
    | nil => cases h
    | cons x xs => cases h; simp
  cases o with
  | crcReset => cases h; exact Nat.le_refl _
  | crcPush | decode =>
    obtain ⟨f, hf, he⟩ := Option.map_eq_some_iff.mp h
    cases he
    exact seq hf
  | crcValue => cases h; exact Nat.le_refl _
  | setAddr =>
    obtain ⟨f, hf, he⟩ := Option.map_eq_some_iff.mp h
    cases he
    exact imm hf
  | encode =>
    simp only [decodeOperands] at h
    split at h
    · cases h
    · rename_i fc r hr
      obtain ⟨f, hf, he⟩ := Option.map_eq_some_iff.mp h
      cases he
      exact Nat.le_trans (seq hf) (imm hr)
  | verify =>
    simp only [decodeOperands] at h
    split at h
    · cases h
    · rename_i q r hr
      obtain ⟨f, hf, he⟩ := Option.map_eq_some_iff.mp h
      cases he
      exact Nat.le_trans (seq hf) (seq hr)

/-- Every verdict takes at least one byte of the stream. -/
theorem decodeNext_shorter {s rest : List Byte} {v : Verdict}
    (h : decodeNext s = some (v, rest)) : rest.length < s.length := by
  cases s with
  | nil => cases h
  | cons op s =>
    simp only [decodeNext] at h
    split at h
    · cases h; simp
    · split at h
      · cases h; simp
      · rename_i i r hr
        cases h
        exact Nat.lt_succ_of_le (decodeOperands_suffix hr)

/-- A bound of at least the stream's length changes nothing. -/
theorem decodeStreamUpTo_enough {k : Nat} {s : List Byte} (h : s.length ≤ k) :
    decodeStreamUpTo k s = decodeStreamUpTo s.length s := by
  induction k using Nat.strongRecOn generalizing s with
  | _ k ih =>
    cases s with
    | nil => cases k <;> rfl
    | cons b s =>
      cases k with
      | zero => simp at h
      | succ k =>
        simp only [List.length_cons, decodeStreamUpTo]
        cases hd : decodeNext (b :: s) with
        | none => rfl
        | some p =>
          obtain ⟨v, rest⟩ := p
          have hr : rest.length ≤ s.length := by
            have := decodeNext_shorter hd
            simp only [List.length_cons] at this
            omega
          have hk : s.length ≤ k := by simpa using h
          simp only
          rw [ih k (Nat.lt_succ_self k) (Nat.le_trans hr hk)]
          by_cases hs : s.length < k + 1
          · rw [ih s.length hs hr]
          · omega

/-- The equation of the stream decoder (R67). -/
theorem decodeStream_eq (s : List Byte) :
    decodeStream s =
      match decodeNext s with
      | none => []
      | some (v, rest) => v :: decodeStream rest := by
  cases s with
  | nil => rfl
  | cons b s =>
    simp only [decodeStream, List.length_cons, decodeStreamUpTo]
    cases hd : decodeNext (b :: s) with
    | none => rfl
    | some p =>
      obtain ⟨v, rest⟩ := p
      have := decodeNext_shorter hd
      simp only [List.length_cons] at this
      simp only
      rw [decodeStreamUpTo_enough (by omega)]

end Sys2Proof.Laws
end

