-- ==== Sys2Proof/Laws/State.lean ====
section
/-! SUPPORT. One lemma per field per update, so that no later proof unfolds a record update. -/

namespace Sys2Proof.Laws

open Sys2Proof.Machine

variable (s : State)

@[simp] theorem setCrc_crc (v : Word) : (setCrc v s).crc = v := rfl
@[simp] theorem setCrc_crcValid (v : Word) : (setCrc v s).crcValid = s.crcValid := rfl
@[simp] theorem setCrc_addr (v : Word) : (setCrc v s).addr = s.addr := rfl
@[simp] theorem setCrc_addrValid (v : Word) : (setCrc v s).addrValid = s.addrValid := rfl
@[simp] theorem setCrc_fault (v : Word) : (setCrc v s).fault = s.fault := rfl
@[simp] theorem setCrc_input (v : Word) : (setCrc v s).input = s.input := rfl
@[simp] theorem setCrc_responses (v : Word) : (setCrc v s).responses = s.responses := rfl
@[simp] theorem setCrc_draws (v : Word) : (setCrc v s).draws = s.draws := rfl

@[simp] theorem setCrcValid_crc (b : Bool) : (setCrcValid b s).crc = s.crc := rfl
@[simp] theorem setCrcValid_crcValid (b : Bool) : (setCrcValid b s).crcValid = b := rfl
@[simp] theorem setCrcValid_addr (b : Bool) : (setCrcValid b s).addr = s.addr := rfl
@[simp] theorem setCrcValid_addrValid (b : Bool) : (setCrcValid b s).addrValid = s.addrValid := rfl
@[simp] theorem setCrcValid_fault (b : Bool) : (setCrcValid b s).fault = s.fault := rfl
@[simp] theorem setCrcValid_input (b : Bool) : (setCrcValid b s).input = s.input := rfl
@[simp] theorem setCrcValid_responses (b : Bool) : (setCrcValid b s).responses = s.responses := rfl
@[simp] theorem setCrcValid_draws (b : Bool) : (setCrcValid b s).draws = s.draws := rfl

@[simp] theorem setAddr_crc (v : Byte) : (setAddr v s).crc = s.crc := rfl
@[simp] theorem setAddr_crcValid (v : Byte) : (setAddr v s).crcValid = s.crcValid := rfl
@[simp] theorem setAddr_addr (v : Byte) : (setAddr v s).addr = v := rfl
@[simp] theorem setAddr_addrValid (v : Byte) : (setAddr v s).addrValid = s.addrValid := rfl
@[simp] theorem setAddr_fault (v : Byte) : (setAddr v s).fault = s.fault := rfl
@[simp] theorem setAddr_input (v : Byte) : (setAddr v s).input = s.input := rfl
@[simp] theorem setAddr_responses (v : Byte) : (setAddr v s).responses = s.responses := rfl
@[simp] theorem setAddr_draws (v : Byte) : (setAddr v s).draws = s.draws := rfl

@[simp] theorem setAddrValid_crc (b : Bool) : (setAddrValid b s).crc = s.crc := rfl
@[simp] theorem setAddrValid_crcValid (b : Bool) : (setAddrValid b s).crcValid = s.crcValid := rfl
@[simp] theorem setAddrValid_addr (b : Bool) : (setAddrValid b s).addr = s.addr := rfl
@[simp] theorem setAddrValid_addrValid (b : Bool) : (setAddrValid b s).addrValid = b := rfl
@[simp] theorem setAddrValid_fault (b : Bool) : (setAddrValid b s).fault = s.fault := rfl
@[simp] theorem setAddrValid_input (b : Bool) : (setAddrValid b s).input = s.input := rfl
@[simp] theorem setAddrValid_responses (b : Bool) : (setAddrValid b s).responses = s.responses := rfl
@[simp] theorem setAddrValid_draws (b : Bool) : (setAddrValid b s).draws = s.draws := rfl

@[simp] theorem setFault_crc (v : Byte) : (setFault v s).crc = s.crc := rfl
@[simp] theorem setFault_crcValid (v : Byte) : (setFault v s).crcValid = s.crcValid := rfl
@[simp] theorem setFault_addr (v : Byte) : (setFault v s).addr = s.addr := rfl
@[simp] theorem setFault_addrValid (v : Byte) : (setFault v s).addrValid = s.addrValid := rfl
@[simp] theorem setFault_fault (v : Byte) : (setFault v s).fault = v := rfl
@[simp] theorem setFault_input (v : Byte) : (setFault v s).input = s.input := rfl
@[simp] theorem setFault_responses (v : Byte) : (setFault v s).responses = s.responses := rfl
@[simp] theorem setFault_draws (v : Byte) : (setFault v s).draws = s.draws := rfl

@[simp] theorem setInput_crc (ms : List HostMove) : (setInput ms s).crc = s.crc := rfl
@[simp] theorem setInput_crcValid (ms : List HostMove) : (setInput ms s).crcValid = s.crcValid := rfl
@[simp] theorem setInput_addr (ms : List HostMove) : (setInput ms s).addr = s.addr := rfl
@[simp] theorem setInput_addrValid (ms : List HostMove) : (setInput ms s).addrValid = s.addrValid := rfl
@[simp] theorem setInput_fault (ms : List HostMove) : (setInput ms s).fault = s.fault := rfl
@[simp] theorem setInput_input (ms : List HostMove) : (setInput ms s).input = ms := rfl
@[simp] theorem setInput_responses (ms : List HostMove) : (setInput ms s).responses = s.responses := rfl
@[simp] theorem setInput_draws (ms : List HostMove) : (setInput ms s).draws = s.draws := rfl

@[simp] theorem returnResponse_crc (r : Response) : (returnResponse r s).crc = s.crc := rfl
@[simp] theorem returnResponse_crcValid (r : Response) : (returnResponse r s).crcValid = s.crcValid := rfl
@[simp] theorem returnResponse_addr (r : Response) : (returnResponse r s).addr = s.addr := rfl
@[simp] theorem returnResponse_addrValid (r : Response) : (returnResponse r s).addrValid = s.addrValid := rfl
@[simp] theorem returnResponse_fault (r : Response) : (returnResponse r s).fault = s.fault := rfl
@[simp] theorem returnResponse_input (r : Response) : (returnResponse r s).input = s.input := rfl
@[simp] theorem returnResponse_responses (r : Response) : (returnResponse r s).responses = s.responses ++ [r] := rfl
@[simp] theorem returnResponse_draws (r : Response) : (returnResponse r s).draws = s.draws := rfl

@[simp] theorem respond_crc (c : Status) (d : List Byte) :
    (respond c d s).crc = s.crc := rfl
@[simp] theorem respond_crcValid (c : Status) (d : List Byte) :
    (respond c d s).crcValid = s.crcValid := rfl
@[simp] theorem respond_addr (c : Status) (d : List Byte) :
    (respond c d s).addr = s.addr := rfl
@[simp] theorem respond_addrValid (c : Status) (d : List Byte) :
    (respond c d s).addrValid = s.addrValid := rfl
@[simp] theorem respond_fault (c : Status) (d : List Byte) :
    (respond c d s).fault = s.fault := rfl
@[simp] theorem respond_input (c : Status) (d : List Byte) :
    (respond c d s).input = s.input := rfl
@[simp] theorem respond_responses (c : Status) (d : List Byte) :
    (respond c d s).responses = s.responses ++ [⟨statusCode c, d⟩] := rfl
@[simp] theorem respond_draws (c : Status) (d : List Byte) :
    (respond c d s).draws = s.draws := rfl

@[simp] theorem raiseFault_crc (c : Cause) :
    (raiseFault c s).crc = s.crc := rfl
@[simp] theorem raiseFault_crcValid (c : Cause) :
    (raiseFault c s).crcValid = s.crcValid := rfl
@[simp] theorem raiseFault_addr (c : Cause) :
    (raiseFault c s).addr = s.addr := rfl
@[simp] theorem raiseFault_addrValid (c : Cause) :
    (raiseFault c s).addrValid = s.addrValid := rfl
@[simp] theorem raiseFault_fault (c : Cause) :
    (raiseFault c s).fault = causeCode c := rfl
@[simp] theorem raiseFault_input (c : Cause) :
    (raiseFault c s).input = s.input := rfl
@[simp] theorem raiseFault_responses (c : Cause) :
    (raiseFault c s).responses = s.responses ++ [⟨faultStatus (causeCode c), []⟩] := rfl
@[simp] theorem raiseFault_draws (c : Cause) :
    (raiseFault c s).draws = s.draws := rfl

@[simp] theorem respondHalted_crc : (respondHalted s).crc = s.crc := rfl
@[simp] theorem respondHalted_crcValid : (respondHalted s).crcValid = s.crcValid := rfl
@[simp] theorem respondHalted_addr : (respondHalted s).addr = s.addr := rfl
@[simp] theorem respondHalted_addrValid : (respondHalted s).addrValid = s.addrValid := rfl
@[simp] theorem respondHalted_fault : (respondHalted s).fault = s.fault := rfl
@[simp] theorem respondHalted_input : (respondHalted s).input = s.input := rfl
@[simp] theorem respondHalted_responses : (respondHalted s).responses = s.responses ++ [⟨faultStatus s.fault, []⟩] := rfl
@[simp] theorem respondHalted_draws : (respondHalted s).draws = s.draws := rfl

@[simp] theorem resetSignal_crc : (resetSignal s).crc = Config.resetCrc s.draws := rfl
@[simp] theorem resetSignal_crcValid : (resetSignal s).crcValid = false := rfl
@[simp] theorem resetSignal_addr : (resetSignal s).addr = Config.resetAddr s.draws := rfl
@[simp] theorem resetSignal_addrValid : (resetSignal s).addrValid = false := rfl
@[simp] theorem resetSignal_fault : (resetSignal s).fault = 0#8 := rfl
@[simp] theorem resetSignal_input : (resetSignal s).input = s.input := rfl
@[simp] theorem resetSignal_responses : (resetSignal s).responses = s.responses := rfl
@[simp] theorem resetSignal_draws : (resetSignal s).draws = s.draws + 1 := rfl

end Sys2Proof.Laws
end

