-- ==== Sys2Proof/Laws/Ops.lean ====
section
/-! SUPPORT. What the shared operations, one verdict and one step can do, each said once. -/

namespace Sys2Proof.Laws

open Sys2Proof.Machine

/-! ## Running a command -/

/-- An unfaulted block runs the command's body (R177). -/
theorem runCommand_unfaulted {body : State → State} {s : State} (h : s.fault = 0#8) :
    runCommand body s = .next (body s) := by
  simp [runCommand, h]

/-- A halted block repeats its fault (R175). -/
theorem runCommand_halted {body : State → State} {s : State} (h : s.fault ≠ 0#8) :
    runCommand body s = .next (respondHalted s) := by
  simp [runCommand, h]

/-- The two ways a command can complete. -/
theorem runCommand_cases {body : State → State} {s t : State}
    (h : runCommand body s = .next t) :
    (s.fault = 0#8 ∧ t = body s) ∨ (s.fault ≠ 0#8 ∧ t = respondHalted s) := by
  simp only [runCommand, Host.Outcome.next.injEq] at h
  subst h
  by_cases hf : s.fault = 0#8 <;> simp [hf]

/-! ## Fault causes -/

/-- No cause code is 0x00, which means no fault (R173). -/
@[simp] theorem causeCode_ne_zero (c : Cause) : causeCode c ≠ 0#8 := by
  cases c <;> decide

/-- The cause codes are 0x01 to 0x06 (R173). -/
theorem causeCode_range (c : Cause) : 1 ≤ (causeCode c).toNat ∧ (causeCode c).toNat ≤ 6 := by
  cases c <;> decide

/-! ## The effect of each command on an unfaulted block -/

/-- What a command does when the block is not halted: its meaning without the halted test. -/
def effect (i : Instr) (s : State) : State :=
  match i with
  | .crcReset => crcResetEffect s
  | .crcPush data => crcPushEffect data s
  | .crcValue => crcValueEffect s
  | .setAddr a => setAddrEffect a s
  | .encode fc payload => encodeEffect fc payload s
  | .verify req resp => verifyEffect req resp s
  | .decode frame => decodeEffect frame s

/-- Every command is the halted test and then its effect. -/
theorem exec_eq (i : Instr) (s : State) : exec i s = runCommand (effect i) s := by
  cases i <;> rfl

/-- A command on an unfaulted block has its effect. -/
theorem exec_unfaulted {i : Instr} {s : State} (h : s.fault = 0#8) :
    exec i s = .next (effect i s) := by
  rw [exec_eq, runCommand_unfaulted h]

/-- A command on a halted block repeats the fault (R175). -/
theorem exec_halted {i : Instr} {s : State} (h : s.fault ≠ 0#8) :
    exec i s = .next (respondHalted s) := by
  rw [exec_eq, runCommand_halted h]

/-- What a verdict does when the block is not halted. -/
def verdictEffect (v : Verdict) (s : State) : State :=
  match v with
  | .command i => effect i s
  | .illegal _ => raiseFault .illegalOpcode s
  | .truncated => raiseFault .truncated s

/-- Every verdict is the halted test and then its effect. -/
theorem execVerdict_eq (v : Verdict) (s : State) :
    execVerdict v s = runCommand (verdictEffect v) s := by
  cases v with
  | command i => exact exec_eq i s
  | illegal _ => rfl
  | truncated => rfl

/-- The next state of a verdict. -/
def afterVerdict (v : Verdict) (s : State) : State :=
  if s.fault = 0#8 then verdictEffect v s else respondHalted s

/-- Every verdict has a next state: no command stops the machine (R47, R70). -/
theorem execVerdict_next (v : Verdict) (s : State) :
    execVerdict v s = .next (afterVerdict v s) :=
  execVerdict_eq v s

/-- Every command has a next state. -/
theorem exec_next (i : Instr) (s : State) : exec i s = .next (afterVerdict (.command i) s) :=
  execVerdict_next (.command i) s

/-- A halted block does the same with every verdict (R175). -/
theorem afterVerdict_halted {v : Verdict} {s : State} (h : s.fault ≠ 0#8) :
    afterVerdict v s = respondHalted s := by
  simp [afterVerdict, h]

/-- An unfaulted block does the verdict's effect. -/
theorem afterVerdict_unfaulted {v : Verdict} {s : State} (h : s.fault = 0#8) :
    afterVerdict v s = verdictEffect v s := by
  simp [afterVerdict, h]

/-- The shapes a command's effect can have: a fault entry, a response that changes no register, or
one of the three commands that write a register (R31, R170, R174). -/
theorem effect_cases (i : Instr) (s : State) :
    (∃ c, effect i s = raiseFault c s) ∨
    (∃ c d, Safety.writesCrc i = false ∧ Safety.writesAddr i = false ∧
      effect i s = respond c d s) ∨
    (i = .crcReset ∧
      effect i s = respond .ok [] (setCrcValid true (setCrc Config.crcInit s))) ∨
    (∃ data, i = .crcPush data ∧ s.crcValid = true ∧
      effect i s = respond .ok [] (setCrc (crcFold s.crc data) s)) ∨
    (∃ a, i = .setAddr a ∧ effect i s = respond .ok [] (setAddrValid true (setAddr a s))) := by
  cases i with
  | crcReset => exact .inr (.inr (.inl ⟨rfl, rfl⟩))
  | crcPush data =>
    by_cases h : s.crcValid = false
    · exact .inl ⟨.crcUninit, by simp [effect, crcPushEffect, h]⟩
    · exact .inr (.inr (.inr (.inl
        ⟨data, rfl, by simpa using h, by simp [effect, crcPushEffect, h]⟩)))
  | crcValue =>
    simp only [effect, crcValueEffect]
    split
    · exact .inl ⟨_, rfl⟩
    · exact .inr (.inl ⟨_, _, rfl, rfl, rfl⟩)
  | setAddr a => exact .inr (.inr (.inr (.inr ⟨a, rfl, rfl⟩)))
  | encode fc payload =>
    simp only [effect, encodeEffect]
    split
    · exact .inr (.inl ⟨_, _, rfl, rfl, rfl⟩)
    · split
      · exact .inl ⟨_, rfl⟩
      · exact .inr (.inl ⟨_, _, rfl, rfl, rfl⟩)
  | verify req resp =>
    simp only [effect, verifyEffect]
    split
    · exact .inr (.inl ⟨_, _, rfl, rfl, rfl⟩)
    · split
      · exact .inl ⟨_, rfl⟩
      · split <;> exact .inr (.inl ⟨_, _, rfl, rfl, rfl⟩)
  | decode frame =>
    simp only [effect, decodeEffect]
    split
    · exact .inl ⟨_, rfl⟩
    · split <;> exact .inr (.inl ⟨_, _, rfl, rfl, rfl⟩)

/-- A verdict leaves the host's moves alone, whatever they are (R181). -/
theorem afterVerdict_setInput (v : Verdict) (s : State) (ms : List HostMove) :
    afterVerdict v (setInput ms s) = setInput ms (afterVerdict v s) := by
  unfold afterVerdict
  rw [setInput_fault]
  split
  · cases v with
    | command i =>
      cases i <;>
        simp only [verdictEffect, effect, crcResetEffect, crcPushEffect, crcValueEffect,
          setAddrEffect, encodeEffect, verifyEffect, decodeEffect] <;>
        (repeat' split) <;> first | rfl | simp_all
    | illegal _ => rfl
    | truncated => rfl
  · rfl

/-- A verdict leaves the host's moves alone. -/
@[simp] theorem afterVerdict_input (v : Verdict) (s : State) :
    (afterVerdict v s).input = s.input := by
  have h := congrArg State.input (afterVerdict_setInput v s s.input)
  exact h

/-! ## One step -/

/-- A step that answers a next state took the reset signal or executed one verdict (R181). -/
theorem step_cases {s t : State} (h : step s = .next t) :
    (∃ rest, fetch s.input = .reset rest ∧ t = resetSignal (setInput rest s)) ∨
    (∃ v rest, fetch s.input = .verdict v rest ∧ t = afterVerdict v (setInput rest s)) := by
  unfold step at h
  split at h
  · cases h
  · rename_i rest hf
    exact .inl ⟨rest, hf, by simpa using h.symm⟩
  · rename_i v rest hf
    rw [execVerdict_next] at h
    exact .inr ⟨v, rest, hf, by simpa using h.symm⟩

/-- A run of verdicts has a final state. -/
theorem runVerdicts_next (vs : List Verdict) (s : State) :
    Safety.runVerdicts vs s = .next (vs.foldl (fun s v => afterVerdict v s) s) := by
  induction vs generalizing s with
  | nil => rfl
  | cons v vs ih => simp [Safety.runVerdicts, execVerdict_next, ih]

/-- Every list of well-formed commands is a run, and it ends in one state (R184). -/
theorem isRun_iff (vs : List Verdict) (t : State) :
    Safety.IsRun vs t ↔
      Safety.RunWellFormed vs ∧ t = vs.foldl (fun s v => afterVerdict v s) State.reset := by
  simp [Safety.IsRun, Safety.runFromReset, runVerdicts_next, eq_comm]

end Sys2Proof.Laws
end

