-- ==== Sys2Proof/Laws/PerInstr.lean ====
section
/-! SUPPORT. The per-instruction family Encoding: the length and the opcode byte of each command's
encoding (30_encoding.md R63, R64), one lemma per constructor. -/

namespace Sys2Proof.Laws.Encoding

/-- A len16 field and the bytes before it, as the field reader of the opcode table's words sees it. -/
theorem len16At_append (pre s rest : List Byte) (h : s.length ≤ 65535) :
    len16At (pre ++ (encodeSeq s ++ rest)) pre.length = s.length := by
  have h0 : (pre ++ (encodeSeq s ++ rest)).getD pre.length 0 = BitVec.ofNat 8 (s.length / 256) := by
    simp [List.getD_eq_getElem?_getD, encodeSeq, len16Bytes]
  have h1 : (pre ++ (encodeSeq s ++ rest)).getD (pre.length + 1) 0 = BitVec.ofNat 8 s.length := by
    simp [List.getD_eq_getElem?_getD, encodeSeq, len16Bytes]
  rw [len16At, h0, h1, len16Value_bytes h]

/-- A command's encoding has the total length of R64, and that length can be read off the bytes of
any stream the command begins. -/
def Statement (i : Instr) : Prop :=
  (encode i).length = i.encodedLength ∧
  (i.WellFormed → ∀ rest, commandLength (encode i ++ rest) = i.encodedLength)

theorem crcReset : Statement .crcReset :=
  ⟨rfl, fun _ _ => rfl⟩

theorem crcPush (data : List Byte) : Statement (.crcPush data) := by
  refine ⟨encode_length _, fun h rest => ?_⟩
  have hd := (fitsLen16_iff data).mp h
  exact congrArg (3 + ·) (len16At_append [Opcode.crcPush.byte] data rest hd)

theorem crcValue : Statement .crcValue :=
  ⟨rfl, fun _ _ => rfl⟩

theorem setAddr (a : Byte) : Statement (.setAddr a) :=
  ⟨rfl, fun _ _ => rfl⟩

theorem encode (fc : Byte) (payload : List Byte) : Statement (.encode fc payload) := by
  refine ⟨encode_length _, fun h rest => ?_⟩
  have hp := (fitsLen16_iff payload).mp h
  exact congrArg (4 + ·) (len16At_append [Opcode.encode.byte, fc] payload rest hp)

theorem verify (req resp : List Byte) : Statement (.verify req resp) := by
  refine ⟨encode_length _, fun h rest => ?_⟩
  have h2 := Bool.and_eq_true_iff.mp h
  have hq := (fitsLen16_iff req).mp h2.1
  have hr := (fitsLen16_iff resp).mp h2.2
  have e : Sys2Proof.encode (.verify req resp) ++ rest =
      [Opcode.verify.byte] ++ (encodeSeq req ++ (encodeSeq resp ++ rest)) := by
    simp [Sys2Proof.encode]
  have e' : [Opcode.verify.byte] ++ (encodeSeq req ++ (encodeSeq resp ++ rest)) =
      (Opcode.verify.byte :: encodeSeq req) ++ (encodeSeq resp ++ rest) := by
    simp
  have l1 := len16At_append [Opcode.verify.byte] req (encodeSeq resp ++ rest) hq
  have l2 := len16At_append (Opcode.verify.byte :: encodeSeq req) resp rest hr
  have hl : (Opcode.verify.byte :: encodeSeq req).length = 3 + req.length := by
    simp
    omega
  rw [← e'] at l2
  rw [hl] at l2
  rw [e]
  show 5 + len16At _ 1 + len16At _ (3 + len16At _ 1) = _
  rw [show len16At _ 1 = req.length from l1, l2]
  rfl

theorem decode (frame : List Byte) : Statement (.decode frame) := by
  refine ⟨encode_length _, fun h rest => ?_⟩
  have hf := (fitsLen16_iff frame).mp h
  exact congrArg (3 + ·) (len16At_append [Opcode.decode.byte] frame rest hf)

end Sys2Proof.Laws.Encoding
end

