-- ==== Sys2Proof/Tests/Slice0.lean ====
section
/-! SUPPORT. Tests of the model on words and vectors written out from the spec, and for each statement
with hypotheses a witness that meets them. Expected values come from 95_test_vectors.md and the format
tables of 30_encoding.md. -/

namespace Sys2Proof.Tests

open Sys2Proof.Machine Sys2Proof.Safety

/-- The next state an outcome answers, if it answers one. -/
def nextOf : Host.Outcome State Fault Refusal → Option State
  | .next t => some t
  | .fault _ => none
  | .refused _ => none

/-! ## States -/

/-- A block whose accumulator and address are both initialised. -/
def live : State :=
  { State.reset with crc := 0xFFFF, crcValid := true, addr := 0x11, addrValid := true }

/-- The halted block of V-FLT-1. -/
def halted : State := { State.reset with fault := 0x04 }

/-- V-SRC-1's frame, as V-ENC-2 gives it. -/
def request : List Byte := [0x11, 0x03, 0x00, 0x6B, 0x00, 0x03, 0x87, 0x76]

/-! ## Well-formedness: each check refuses an operand of 65536 bytes (R69) -/

/-- A sequence one byte too long for a length field. -/
def tooLong : List Byte := List.replicate 65536 0

theorem tooLong_length : tooLong.length = 65536 := List.length_replicate

theorem tooLong_refused : fitsLen16 tooLong = false := by
  rw [Bool.eq_false_iff]
  intro h
  have := (Laws.fitsLen16_iff tooLong).mp h
  rw [tooLong_length] at this
  omega

theorem test_ill_formed_push : (Instr.crcPush tooLong).wellFormed = false := tooLong_refused
theorem test_ill_formed_encode : (Instr.encode 0 tooLong).wellFormed = false := tooLong_refused
theorem test_ill_formed_decode : (Instr.decode tooLong).wellFormed = false := tooLong_refused

theorem test_ill_formed_verify_request : (Instr.verify tooLong []).wellFormed = false := by
  simp [Instr.wellFormed, tooLong_refused]

theorem test_ill_formed_verify_response : (Instr.verify [] tooLong).wellFormed = false := by
  simp [Instr.wellFormed, tooLong_refused]

/-- The longest sequence a length field can carry is accepted. -/
theorem test_well_formed_longest : (Instr.crcPush (List.replicate 65535 0)).WellFormed :=
  (Laws.fitsLen16_iff _).mpr (Nat.le_of_eq List.length_replicate)

/-! ## Decoding: every constructor from a word written out from R64 -/

theorem test_decode_crcReset : decodeNext [0x01] = some (.command .crcReset, []) := by decide

/-- V-CRC-8: `02 00 02 11 03`, with the first byte of a later command after it. -/
theorem test_decode_crcPush :
    decodeNext [0x02, 0x00, 0x02, 0x11, 0x03, 0x01] =
      some (.command (.crcPush [0x11, 0x03]), [0x01]) := by decide

theorem test_decode_crcValue : decodeNext [0x03] = some (.command .crcValue, []) := by decide

theorem test_decode_setAddr : decodeNext [0x10, 0xF8] = some (.command (.setAddr 0xF8), []) := by
  decide

/-- V-SRC-1: `20 03 00 04 00 6B 00 03`. -/
theorem test_decode_encode :
    decodeNext [0x20, 0x03, 0x00, 0x04, 0x00, 0x6B, 0x00, 0x03] =
      some (.command (.encode 0x03 [0x00, 0x6B, 0x00, 0x03]), []) := by decide

/-- P3: `30 00 02 01 10 00 03 01 10 00`. -/
theorem test_decode_verify :
    decodeNext [0x30, 0x00, 0x02, 0x01, 0x10, 0x00, 0x03, 0x01, 0x10, 0x00] =
      some (.command (.verify [0x01, 0x10] [0x01, 0x10, 0x00]), []) := by decide

/-- P3: `40 00 04 01 10 EC 01`. -/
theorem test_decode_decode :
    decodeNext [0x40, 0x00, 0x04, 0x01, 0x10, 0xEC, 0x01] =
      some (.command (.decode [0x01, 0x10, 0xEC, 0x01]), []) := by decide

/-- The high byte of a length field comes first (R63): 0x0100 is 256. -/
theorem test_decode_len16_order : readLen16 [0x01, 0x00, 0xAA] = some (256, [0xAA]) := by decide

/-- V-FLT-2: `01 FF 03` stops at the reserved byte. -/
theorem test_stream_illegal :
    decodeStream [0x01, 0xFF, 0x03] = [.command .crcReset, .illegal 0xFF] := by decide

/-- V-FLT-2: `30 00 01 11 00` ends inside VERIFY's second length field. -/
theorem test_stream_truncated : decodeStream [0x30, 0x00, 0x01, 0x11, 0x00] = [.truncated] := by
  decide

/-- The words of the opcode table, with the operand fields they leave out zero. -/
theorem test_table_words :
    decodeTableWord 8 0x01 = some .crcReset ∧ decodeTableWord 8 0x02 = some (.crcPush []) ∧
    decodeTableWord 8 0x03 = some .crcValue ∧ decodeTableWord 8 0x10 = some (.setAddr 0) ∧
    decodeTableWord 8 0x20 = some (.encode 0 []) ∧ decodeTableWord 8 0x30 = some (.verify [] []) ∧
    decodeTableWord 8 0x40 = some (.decode []) ∧ decodeTableWord 8 0x04 = none ∧
    decodeTableWord 24 0x010002 = some (.crcPush [0x00]) := by decide

/-- A word placed where the block fetches runs as the first command after reset. -/
theorem test_fetch_word :
    step (State.reset.withFetchWord 16 0x1110) = exec (.setAddr 0x11) State.reset := by rfl

/-! ## The commands: at most two vectors each -/

/-- V-CRC-7: CRC_RESET from CRC = 0x1234. -/
theorem test_crcReset :
    nextOf (exec .crcReset { live with crc := 0x1234 }) = some (withResponse live 0x00 []) := by
  decide +kernel

/-- V-FLT-1: CRC_RESET on the halted block. -/
theorem test_crcReset_halted : nextOf (exec .crcReset halted) = some (withResponse halted 0x84 []) := by
  decide +kernel

/-- P1: pushing `6B 00 03` onto 0x3521 gives 0x8776. -/
theorem test_crcPush :
    nextOf (exec (.crcPush [0x6B, 0x00, 0x03]) { live with crc := 0x3521 }) =
      some (withResponse { live with crc := 0x8776 } 0x00 []) := by decide +kernel

/-- V-CRC-8: pushing no byte before CRC_RESET. -/
theorem test_crcPush_uninit :
    nextOf (exec (.crcPush []) State.reset) =
      some (withResponse { State.reset with fault := 0x03 } 0x83 []) := by decide +kernel

/-- V-CRC-7: CRC_VALUE of 0x8776, high byte first. -/
theorem test_crcValue :
    nextOf (exec .crcValue { live with crc := 0x8776 }) =
      some (withResponse { live with crc := 0x8776 } 0x00 [0x87, 0x76]) := by decide +kernel

/-- V-ENC-1: SET_ADDR 0xF8 leaves CRC. -/
theorem test_setAddr :
    nextOf (exec (.setAddr 0xF8) live) = some (withResponse { live with addr := 0xF8 } 0x00 []) := by
  decide +kernel

/-- V-SRC-1: ENCODE's worked example. -/
theorem test_encode :
    nextOf (exec (.encode 0x03 [0x00, 0x6B, 0x00, 0x03]) live) =
      some (withResponse live 0x00 (0x00 :: 0x08 :: request)) := by decide +kernel

/-- V-ENC-2, last row: a function code with bit 7 set. -/
theorem test_encode_exception_code :
    nextOf (exec (.encode 0x83 [0x02]) live) =
      some (withResponse live 0x00 [0x00, 0x05, 0x11, 0x83, 0x02, 0x34, 0xC1]) := by decide +kernel

/-- V-VER-8: one request byte is enough, and only the first bytes are compared. -/
theorem test_verify :
    nextOf (exec (.verify [0x11] [0x11, 0x00, 0x00, 0x00]) live) = some (withResponse live 0x00 []) := by
  decide +kernel

/-- V-VER-12: with an empty request a short response is still only too short. -/
theorem test_verify_short :
    nextOf (exec (.verify [] [0x11, 0x03, 0x00]) live) = some (withResponse live 0x02 []) := by
  decide +kernel

/-- V-DEC-1: DECODE of a response frame. -/
theorem test_decode :
    nextOf (exec (.decode [0x11, 0x03, 0x06, 0x02, 0x2B, 0x00, 0x00, 0x00, 0x64, 0xBA, 0xC8]) live) =
      some (withResponse live 0x00
        [0x03, 0x00, 0x07, 0x06, 0x02, 0x2B, 0x00, 0x00, 0x00, 0x64]) := by decide +kernel

/-- V-DEC-5: the standard low-byte-first frame is rejected. -/
theorem test_decode_low_first :
    nextOf (exec (.decode [0x11, 0x03, 0x00, 0x6B, 0x00, 0x03, 0x76, 0x87]) live) =
      some (withResponse live 0x04 []) := by decide +kernel

/-- R7: the largest payload fills the largest frame. -/
theorem test_parameters :
    Config.maxPayload + Config.frameOverhead = Config.maxFrame ∧ Config.crcXorOut = 0 := by decide

/-- R71: `CRC_PUSH` with one repeated item and a comment. -/
theorem test_assemble :
    assemble (Mnemonic.text .crcPush ++
      [' ', openBrace, '3', '*', '0', '0', closeBrace, ';', 'x', '\n'] ++ Mnemonic.text .crcValue) =
      some [0x02, 0x00, 0x03, 0x00, 0x00, 0x00, 0x03] := by decide +kernel

/-- R71: a decimal byte operand. -/
theorem test_assemble_decimal :
    assembleLine (Mnemonic.text .setAddr ++ [' ', '1', '7']) = some [.setAddr 0x11] := by
  decide +kernel

/-! ## Witnesses: each statement's hypotheses can be met, at the boundaries of their ranges -/

/-- A payload of 252 bytes, the largest that fits. -/
def payload252 : List Byte := List.replicate 252 0

/-- A payload of 253 bytes, the smallest that does not fit. -/
def payload253 : List Byte := List.replicate 253 0

theorem payload252_length : payload252.length = 252 := List.length_replicate

theorem payload253_length : payload253.length = 253 := List.length_replicate

theorem payload252_fits : payload252.length ≤ 252 := Nat.le_of_eq payload252_length

theorem witness_DecodeOfEncode :
    (Instr.setAddr 0x11).WellFormed ∧ (Instr.crcPush (List.replicate 65535 0)).WellFormed :=
  ⟨rfl, test_well_formed_longest⟩

theorem witness_EncodeOfDecode :
    decodeNext [0x10, 0x11, 0x03] = some (.command (.setAddr 0x11), [0x03]) := by decide

theorem witness_ReservedOpcodesAreIllegal :
    let assigned : List Byte := [0x01, 0x02, 0x03, 0x10, 0x20, 0x30, 0x40]
    (0x00 : Byte) ∉ assigned ∧ (0x04 : Byte) ∉ assigned ∧ (0xFF : Byte) ∉ assigned ∧
    (0x01 : Byte) ∈ assigned ∧ (0x40 : Byte) ∈ assigned ∧ live.fault = 0x00 ∧
    { live with input := [.send [0xFF, 0x03]] }.input = .send ((0xFF : Byte) :: [0x03]) :: [] := by
  decide

/-- One byte of SET_ADDR, and ENCODE less its last byte. -/
theorem witness_CutOffCommandIsTruncated :
    (Instr.setAddr 0x11).WellFormed ∧ 0 < 1 ∧ 1 < (encode (.setAddr 0x11)).length ∧
    (Instr.encode 0x03 [0x00]).WellFormed ∧ 0 < 4 ∧ 4 < (encode (.encode 0x03 [0x00])).length ∧
    live.fault = 0x00 ∧
    { live with input := [.send ((encode (.setAddr 0x11)).take 1)] }.input =
      .send ((encode (.setAddr 0x11)).take 1) :: [] := by
  refine ⟨rfl, by decide, by decide, by decide, by decide, by decide, rfl, rfl⟩

theorem witness_StreamDecodesToItsCommands :
    ∀ i ∈ [Instr.crcReset, .crcPush [0x11], .verify [0x11] []], i.WellFormed := by decide

/-- One verdict of each kind that a decoded stream can hold. -/
theorem witness_StreamVerdictsAreWellFormed :
    Verdict.command .crcReset ∈ decodeStream [0x01, 0xFF, 0x03] ∧
    Verdict.illegal 0xFF ∈ decodeStream [0x01, 0xFF, 0x03] ∧
    Verdict.truncated ∈ decodeStream [0x10] := by decide

theorem witness_FrameOfLayout : payload252.length ≤ 252 ∧ ([] : List Byte).length ≤ 252 :=
  ⟨payload252_fits, by decide⟩

/-- A move with one command, and a move with two. -/
theorem witness_StepRunsDecodedCommand :
    { live with input := [.send [0x10, 0x11]] }.input = .send [0x10, 0x11] :: [] ∧
    decodeNext [0x10, 0x11] = some (.command (.setAddr 0x11), []) ∧
    decodeNext [0x10, 0x11, 0x03] = some (.command (.setAddr 0x11), [0x03]) ∧
    (Instr.setAddr 0x11).WellFormed := by decide

theorem witness_StepTakesResetSignal :
    { halted with input := [.reset, .send [0x01]] }.input = .reset :: [.send [0x01]] := rfl

/-- No move at all, and moves without a byte. -/
theorem witness_StepWithoutCommandIsRefused :
    (∀ m ∈ State.reset.input, m = .send []) ∧
    (∀ m ∈ { live with input := [.send [], .send []] }.input, m = .send []) := by decide

theorem witness_StepsOfStreamRunItsVerdicts :
    ([0x01, 0xFF, 0x03] : List Byte) ≠ [] ∧
    { live with input := [.send [0x01, 0xFF, 0x03], .reset] }.input =
      .send [0x01, 0xFF, 0x03] :: [.reset] := by decide

/-- The first clauses of the command statements: a halted block. -/
theorem witness_halted_clauses : halted.fault ≠ 0x00 := by decide

/-- The operand lengths of the encoding clauses, at both ends. -/
theorem witness_encoding_clauses :
    ([] : List Byte).length ≤ 65535 ∧ (List.replicate 65535 (0 : Byte)).length ≤ 65535 :=
  ⟨by decide, Nat.le_of_eq List.length_replicate⟩

theorem witness_CrcResetReinitialises :
    State.reset.fault = 0x00 ∧ exec .crcReset State.reset =
      .next (withResponse { State.reset with crc := 0xFFFF, crcValid := true } 0x00 []) :=
  ⟨rfl, rfl⟩

/-- Before CRC_RESET, after it, and two pushes. -/
theorem witness_CrcPushFoldsBytes :
    State.reset.fault = 0x00 ∧ State.reset.crcValid = false ∧
    live.fault = 0x00 ∧ live.crcValid = true ∧
    ∃ t u, exec (.crcPush [0x11]) live = .next t ∧ exec (.crcPush [0x03]) t = .next u :=
  ⟨rfl, rfl, rfl, rfl, _, _, rfl, rfl⟩

theorem witness_CrcValueReturnsAccumulator :
    State.reset.fault = 0x00 ∧ State.reset.crcValid = false ∧
    live.fault = 0x00 ∧ live.crcValid = true := by decide

theorem witness_SetAddrHoldsAddress : State.reset.fault = 0x00 := rfl

/-- 253 bytes are too many; 252 are not, before and after SET_ADDR. -/
theorem witness_EncodeBuildsFrame :
    State.reset.fault = 0x00 ∧ payload253.length + 4 > 256 ∧ payload252.length + 4 ≤ 256 ∧
    State.reset.addrValid = false ∧ live.fault = 0x00 ∧ live.addrValid = true := by
  rw [payload252_length, payload253_length]
  decide

/-- Three bytes, and four with an empty request, with another and with the same first byte. -/
theorem witness_VerifyChecksLengthThenAddress :
    live.fault = 0x00 ∧ ([0x11, 0x03, 0x06] : List Byte).length < 4 ∧
    4 ≤ ([0x12, 0x00, 0x00, 0x00] : List Byte).length ∧ ([] : List Byte) = [] ∧
    ([0x11] : List Byte) ≠ [] ∧
    ([0x12, 0x00, 0x00, 0x00] : List Byte)[0]? ≠ ([0x11] : List Byte)[0]? ∧
    ([0x11, 0x00, 0x00, 0x00] : List Byte)[0]? = ([0x11] : List Byte)[0]? := by decide

/-- Three and 257 bytes; four bytes with a wrong and with the right checksum (V-DEC-3). -/
theorem witness_DecodeChecksThenExtracts :
    live.fault = 0x00 ∧ ([0x11, 0x03, 0x00] : List Byte).length < 4 ∧
    256 < (List.replicate 257 (0 : Byte)).length ∧
    (let f : List Byte := [0x01, 0x03, 0x40, 0x21]
     4 ≤ f.length ∧ f.length ≤ 256 ∧ (crc16 (f.take (f.length - 2))).toNat ≠
      (f.getD (f.length - 2) 0).toNat * 256 + (f.getD (f.length - 1) 0).toNat) ∧
    (let f : List Byte := [0x01, 0x03, 0x21, 0x40]
     4 ≤ f.length ∧ f.length ≤ 256 ∧ (crc16 (f.take (f.length - 2))).toNat =
      (f.getD (f.length - 2) 0).toNat * 256 + (f.getD (f.length - 1) 0).toNat) := by
  decide +kernel

/-- The largest frame, of 256 bytes, is inside DECODE's length contract. -/
theorem witness_DecodeChecksThenExtracts_longest :
    4 ≤ (List.replicate 256 (0 : Byte)).length ∧ (List.replicate 256 (0 : Byte)).length ≤ 256 := by
  rw [List.length_replicate]
  decide

theorem witness_ChecksumIsAffine :
    ([0x11, 0x03] : List Byte).length = ([0x01, 0x80] : List Byte).length := rfl

/-- The covered bytes of DECODE's clause, at both ends of their range. -/
theorem witness_ChecksumCommandsReturnCrc16 :
    State.reset.fault = 0x00 ∧ payload252.length ≤ 252 ∧ 2 ≤ ([0x01, 0x03] : List Byte).length ∧
    (List.replicate 254 (0 : Byte)).length ≤ 254 :=
  ⟨rfl, payload252_fits, by decide, Nat.le_of_eq List.length_replicate⟩

theorem witness_EncodedFrameParts :
    live.fault = 0x00 ∧ live.addrValid = true ∧ payload252.length ≤ 252 :=
  ⟨rfl, rfl, payload252_fits⟩

theorem witness_DecodeOfFrameRoundTrip : live.fault = 0x00 ∧ payload252.length ≤ 252 :=
  ⟨rfl, payload252_fits⟩

/-- The first bit of the first byte and the last bit of the last byte of a frame. -/
theorem witness_SingleBitErrorIsDetected :
    live.fault = 0x00 ∧ ([0x00, 0x6B] : List Byte).length ≤ 252 ∧
    0 < (frameOf 0x11 0x03 [0x00, 0x6B]).length ∧ 0 < 8 ∧
    5 < (frameOf 0x11 0x03 [0x00, 0x6B]).length ∧ 7 < 8 := by
  refine ⟨rfl, by decide, Nat.zero_lt_succ _, by decide, ?_, by decide⟩
  show 5 < 6
  decide

theorem witness_VerifyLawsAndIndependence :
    live.fault = 0x00 ∧ ([0x11, 0x03, 0x06] : List Byte).length ≤ 3 ∧
    4 ≤ request.length ∧ 1 ≤ ([0x11] : List Byte).length ∧
    ∃ t u, exec (.verify [0x11] request) live = .next t ∧ exec (.decode request) t = .next u ∧
      u.fault = 0x00 := by
  refine ⟨rfl, by decide, by decide, by decide, _, _, rfl, rfl, ?_⟩
  decide +kernel

theorem witness_ExchangeEndsWell :
    State.reset.fault = 0x00 ∧ payload252.length ≤ 252 ∧ ([] : List Byte).length ≤ 252 :=
  ⟨rfl, payload252_fits, by decide⟩

theorem witness_FaultEntryIsPrecise :
    State.reset.fault = 0x00 ∧
    ∃ t, execVerdict (.command .crcValue) State.reset = .next t ∧ t.fault ≠ 0x00 :=
  ⟨rfl, _, rfl, by decide⟩

theorem witness_HaltedBlockRepeatsFault : halted.fault ≠ 0x00 := by decide

/-- A halted block with a command to come, and with the reset signal to come. -/
theorem witness_OnlyResetClearsFault :
    halted.fault ≠ 0x00 ∧ (∃ t, step { halted with input := [.send [0x01]] } = .next t) ∧
    (∃ t, step { halted with input := [.reset] } = .next t) :=
  ⟨by decide, ⟨_, rfl⟩, ⟨_, rfl⟩⟩

theorem witness_FaultCausesAndConditions :
    State.reset.fault = 0x00 ∧
    ∃ t, execVerdict (.command (.encode 0x03 [])) State.reset = .next t ∧ t.fault = 0x04 :=
  ⟨rfl, _, rfl, rfl⟩

/-- A command that runs, and one on a halted block. -/
theorem witness_RegistersWritten :
    (∃ t, exec .crcValue live = .next t) ∧ writesCrc .crcValue = false ∧
    writesCrcValid (.crcPush []) = false ∧ writesAddr .crcValue = false ∧ halted.fault ≠ 0x00 :=
  ⟨⟨_, rfl⟩, rfl, rfl, rfl, by decide⟩

/-- ENCODE from two states with different accumulators, CRC_VALUE from two with different addresses. -/
theorem witness_RegistersRead :
    live.fault = { live with crc := 0 }.fault ∧ readsCrc (.encode 0x03 []) = false ∧
    live.addr = { live with crc := 0 }.addr ∧
    readsAddr .crcValue = false ∧ live.crc = { live with addr := 0 }.crc ∧
    (∃ t, exec (.encode 0x03 []) live = .next t) ∧
    (∃ t, exec (.encode 0x03 []) { live with crc := 0 } = .next t) :=
  ⟨rfl, rfl, rfl, rfl, rfl, ⟨_, rfl⟩, ⟨_, rfl⟩⟩

/-- The valid bits set and the reset signal to come; clear and CRC_RESET, then SET_ADDR, to come. -/
theorem witness_ValidBitsSetAndCleared :
    (∃ t, step { live with input := [.reset] } = .next t) ∧ live.crcValid = true ∧
    live.addrValid = true ∧
    (∃ t, step { State.reset with input := [.send [0x01]] } = .next t ∧ t.crcValid = true) ∧
    (∃ t, step { State.reset with input := [.send [0x10, 0x11]] } = .next t ∧
      t.addrValid = true) :=
  ⟨⟨_, rfl⟩, rfl, rfl, ⟨_, rfl, rfl⟩, ⟨_, rfl, rfl⟩⟩

theorem witness_IdempotentCommands :
    (∃ t u, exec .crcReset live = .next t ∧ exec .crcReset t = .next u) ∧
    writesCrc (.decode []) = false ∧ writesAddr (.decode []) = false ∧
    ∃ t, exec (.decode []) live = .next t :=
  ⟨⟨_, _, rfl, rfl⟩, rfl, rfl, _, rfl⟩

theorem witness_OneResponsePerCommand :
    ∃ t, step { live with input := [.send [0x03]] } = .next t := ⟨_, rfl⟩

theorem witness_StatusesOfEachCommand : State.reset.fault = 0x00 := rfl

theorem witness_AccumulatorCarriesOver :
    Instr.crcReset ∉ [Instr.crcPush [0x11], .encode 0x03 []] ∧
    (∃ t, runCommands [.crcPush [0x11], .encode 0x03 []] live = .next t ∧ t.fault = 0x00) ∧
    (∃ t, runCommands [.crcReset, .crcPush [0x11], .encode 0x03 []] live = .next t ∧
      t.fault = 0x00) :=
  ⟨by decide, ⟨_, rfl, rfl⟩, ⟨_, rfl, rfl⟩⟩

theorem witness_AddressCarriesOver :
    ∃ t, runCommands [.setAddr 0x01, .setAddr 0x02] live = .next t ∧ t.fault = 0x00 :=
  ⟨_, rfl, rfl⟩

theorem witness_RunEndsWellWithoutFaultStatus : State.reset.fault = 0x00 := rfl

/-- P4 with a reserved byte and a cut-off command after it is a run; a command of an assigned byte as
ILLEGAL, or one with an operand too long, is not. -/
theorem witness_RunsStartFromReset :
    RunWellFormed [.command (.encode 0x03 [0x00, 0x01]), .command .crcReset, .illegal 0xFF, .truncated] ∧
    ¬ RunWellFormed [.illegal 0x01] ∧ ¬ RunWellFormed [.command (.crcPush tooLong)] ∧
    ([0x01, 0xFF, 0x03] : List Byte) ≠ [] := by
  refine ⟨by decide, by decide, ?_, by decide⟩
  simp [RunWellFormed, verdictWellFormed, Instr.wellFormed, tooLong_refused]

/-- V-FLT-2: the stream `01 FF 03` gives the responses `00` and `81` and ends with FAULT = 0x01. -/
theorem test_run_illegal :
    (nextOf (runFromReset [.command .crcReset, .illegal 0xFF])).map
        (fun t => ((observation t).1, t.fault)) =
      some ([⟨0x00, []⟩, ⟨0x81, []⟩], 0x01) := by decide +kernel

/-- The invariant holds of a live block and of a halted one, and a step is taken from it. -/
theorem witness_StepKeepsInvariant :
    Inv { live with input := [.send [0x03]] } ∧
    Inv { halted with responses := [⟨0x84, []⟩] } ∧
    ∃ t, step { live with input := [.send [0x03]] } = .next t :=
  ⟨by decide, by decide, _, rfl⟩

/-- Two states that differ in both registers that are not valid, with a command to come, and the same
with nothing to come. -/
theorem witness_InvalidRegistersAreUnobservable :
    SameToHost { State.reset with input := [.send [0x03]] }
      { State.reset with crc := 0x1234, addr := 0x56, draws := 7, input := [.send [0x03]] } ∧
    (∃ t, step { State.reset with input := [.send [0x03]] } = .next t) ∧
    SameToHost State.reset { State.reset with crc := 0x1234 } ∧
    step State.reset = .refused .noCommand :=
  ⟨by decide, ⟨_, rfl⟩, by decide, rfl⟩

theorem witness_AssemblerReadsWrittenCommands : (Instr.verify [0x11] []).WellFormed := rfl

theorem witness_PseudoInstructionsExpand :
    ([] : List Byte).length ≤ 65535 ∧ (List.replicate 65535 (0 : Byte)).length ≤ 65535 ∧
    State.reset.fault = 0x00 :=
  ⟨by decide, Nat.le_of_eq List.length_replicate, rfl⟩

/-- R72: `ENCODE_TO`, with a decimal and a hexadecimal byte operand. -/
theorem test_assemble_encodeTo :
    assembleLine (Mnemonic.text .encodeTo ++
      [' ', '1', '7', ',', ' ', '0', 'x', '0', '3', ',', ' ', openBrace, closeBrace]) =
      some [.setAddr 0x11, .encode 0x03 []] := by decide +kernel

end Sys2Proof.Tests
end

namespace Sys2Proof.Proofs

open Sys2Proof.Machine Sys2Proof.Safety Sys2Proof.Laws

/-! ## One step, from what is fetched -/

theorem step_of_reset {s : State} {rest : List HostMove} (h : fetch s.input = .reset rest) :
    step s = .next (resetSignal (setInput rest s)) := by
  simp [step, h]

theorem step_of_verdict {s : State} {v : Verdict} {rest : List HostMove}
    (h : fetch s.input = .verdict v rest) :
    step s = .next (afterVerdict v (setInput rest s)) := by
  simp [step, h, execVerdict_next]

/-- A step is refused exactly where nothing is left to fetch (R181). -/
theorem step_refused_iff {s : State} {r : Refusal} :
    step s = .refused r ↔ fetch s.input = .nothing ∧ r = .noCommand := by
  cases h : fetch s.input with
  | nothing => simp [step, h, eq_comm]
  | reset rest => simp [step_of_reset h]
  | verdict v rest => simp [step_of_verdict h]

/-! ## The answer of one verdict -/

/-- How an unfaulted block comes from `s` to `t` by one verdict: by the fault entry, or with FAULT
as it was and one response, whose data is short and stands only behind OK (R70, R170, R174). -/
inductive Answers (s : State) : State → Prop where
  | fault (c : Cause) : Answers s (raiseFault c s)
  | response {t : State} (c : Status) (d : List Byte) (hfault : t.fault = s.fault)
      (hresp : t.responses = s.responses ++ [⟨statusCode c, d⟩])
      (hdata : c ≠ .ok → d = []) (hlen : d.length ≤ 258) : Answers s t

/-- A response without data, after any register but FAULT was written. -/
theorem Answers.empty {s u : State} (c : Status) (hfault : u.fault = s.fault)
    (hresp : u.responses = s.responses) : Answers s (respond c [] u) :=
  .response c [] hfault (by simp [hresp]) (fun _ => rfl) (by simp)

/-- An OK response with data. -/
theorem Answers.ok {s : State} (d : List Byte) (hlen : d.length ≤ 258) :
    Answers s (respond .ok d s) :=
  .response .ok d rfl rfl (fun h => absurd rfl h) hlen

/-- The length of ENCODE's data: the length field and a frame (R70). -/
theorem encodeData_length (a fc : Byte) (p : List Byte) :
    (len16Bytes (frameLength p) ++ frameOf a fc p).length = p.length + 6 := by
  simp [len16Bytes, frameOf_length]

/-- The length of DECODE's data: a length field, and the frame less address and checksum
(R70). -/
theorem pduBytes_length {f : List Byte} (h : 4 ≤ f.length) :
    (pduBytes f).length = f.length - 1 := by
  simp [pduBytes, len16Bytes, slice]
  omega

theorem effect_answers (i : Instr) (s : State) : Answers s (effect i s) := by
  cases i with
  | crcReset => exact .empty .ok rfl rfl
  | crcPush data =>
    simp only [effect, crcPushEffect]
    split
    · exact .fault _
    · exact .empty .ok rfl rfl
  | crcValue =>
    simp only [effect, crcValueEffect]
    split
    · exact .fault _
    · exact .ok _ (by simp [wordBytes])
  | setAddr a => exact .empty .ok rfl rfl
  | encode fc payload =>
    simp only [effect, encodeEffect]
    split
    · exact .empty _ rfl rfl
    · rename_i hfits
      split
      · exact .fault _
      · refine .ok _ ?_
        simp only [frameLength, Config.frameOverhead, Config.maxFrame] at hfits
        rw [encodeData_length]
        omega
  | verify req resp =>
    simp only [effect, verifyEffect]
    split
    · exact .empty _ rfl rfl
    · split
      · exact .fault _
      · split <;> exact .empty _ rfl rfl
  | decode frame =>
    simp only [effect, decodeEffect]
    split
    · exact .fault _
    · rename_i hfits
      split
      · exact .empty _ rfl rfl
      · refine .ok _ ?_
        simp only [Config.minFrame, Config.maxFrame] at hfits
        rw [pduBytes_length (by omega)]
        omega

theorem verdictEffect_answers (v : Verdict) (s : State) : Answers s (verdictEffect v s) := by
  cases v with
  | command i => exact effect_answers i s
  | illegal _ => exact .fault _
  | truncated => exact .fault _

theorem Answers.responses {s t : State} (h : Answers s t) :
    ∃ r, t.responses = s.responses ++ [r] := by
  cases h with
  | fault c => exact ⟨_, raiseFault_responses s c⟩
  | response c d _ hresp _ _ => exact ⟨_, hresp⟩

/-- Every verdict adds one response, on a halted block too (R70, R175). -/
theorem afterVerdict_responses (v : Verdict) (s : State) :
    ∃ r, (afterVerdict v s).responses = s.responses ++ [r] := by
  by_cases hf : s.fault = 0#8
  · rw [afterVerdict_unfaulted hf]
    exact (verdictEffect_answers v s).responses
  · rw [afterVerdict_halted hf]
    exact ⟨_, respondHalted_responses s⟩

/-- Settles O39, by the inversion of a step and the one response of a verdict. -/
theorem oneResponsePerCommand : Obligations.OneResponsePerCommand := by
  intro s t hstep
  obtain ⟨rest, hfetch, rfl⟩ | ⟨v, rest, hfetch, rfl⟩ := step_cases hstep
  · exact .inl ⟨rest, hfetch, rfl⟩
  · obtain ⟨r, hr⟩ := afterVerdict_responses v (setInput rest s)
    exact .inr ⟨v, rest, r, hfetch, hr, by simp [State.commandIndex, hr]⟩

/-! ## The invariant -/

/-- Settles O44: at reset there is no fault and no response. -/
theorem resetMeetsInvariant : Obligations.ResetMeetsInvariant :=
  ⟨Nat.zero_le 6, fun _ hr => absurd hr List.not_mem_nil, fun h => absurd rfl h⟩

/-- The high bit of a fault status stands clear of the cause's bits. -/
theorem faultStatus_toNat {f : Byte} (h : f.toNat ≤ 6) :
    (faultStatus f).toNat = 128 + f.toNat := by
  have hlt : f.toNat < 2 ^ 7 := by omega
  have hor := Nat.two_pow_add_eq_or_of_lt hlt 1
  rw [faultStatus, BitVec.toNat_or]
  exact hor.symm

/-- The response to a fault, new or repeated, is legal (R171, R174, R175). -/
theorem faultResponse_legal {f : Byte} (h0 : f ≠ 0#8) (h6 : f.toNat ≤ 6) :
    ResponseLegal ⟨faultStatus f, []⟩ := by
  have hpos : f.toNat ≠ 0 := fun h => h0 (BitVec.eq_of_toNat_eq h)
  have hstatus := faultStatus_toNat h6
  refine ⟨.inr ?_, fun _ => rfl, Nat.zero_le _⟩
  simp only [hstatus]
  omega

theorem statusCode_toNat_le (c : Status) : (statusCode c).toNat ≤ 4 := by
  cases c <;> decide

/-- One more legal response keeps the invariant if it names the fault that is set after it. -/
theorem inv_of_response {s t : State} {r : Response} (hs : Inv s)
    (hresp : t.responses = s.responses ++ [r]) (hlegal : ResponseLegal r) (hfault : FaultLegal t)
    (hlast : t.fault ≠ 0#8 → r = ⟨0x80 ||| t.fault, []⟩) : Inv t := by
  obtain ⟨-, hall, -⟩ := hs
  refine ⟨hfault, fun q hq => ?_, fun h => ?_⟩
  · rw [hresp, List.mem_append, List.mem_singleton] at hq
    obtain hq | rfl := hq
    · exact hall q hq
    · exact hlegal
  · rw [hresp, List.getLast?_concat, hlast h]

theorem inv_respondHalted {s : State} (hs : Inv s) (hf : s.fault ≠ 0#8) :
    Inv (respondHalted s) := by
  have hlegal : FaultLegal s := hs.1
  exact inv_of_response hs (respondHalted_responses s) (faultResponse_legal hf hlegal) hlegal
    fun _ => rfl

/-- What an unfaulted block answers keeps the invariant. -/
theorem inv_of_answers {s t : State} (hs : Inv s) (hf : s.fault = 0#8) (h : Answers s t) :
    Inv t := by
  cases h with
  | fault c =>
    have hc := (causeCode_range c).2
    exact inv_of_response hs (raiseFault_responses s c)
      (faultResponse_legal (causeCode_ne_zero c) hc) hc fun _ => rfl
  | response c d hfault hresp hdata hlen =>
    have ht : t.fault = 0#8 := hfault.trans hf
    refine inv_of_response hs hresp ⟨.inl (statusCode_toNat_le c), fun h => hdata ?_, hlen⟩
      (by simp [FaultLegal, ht]) (fun h => absurd ht h)
    rintro rfl
    exact h rfl

theorem inv_afterVerdict {s : State} (hs : Inv s) (v : Verdict) : Inv (afterVerdict v s) := by
  by_cases hf : s.fault = 0#8
  · rw [afterVerdict_unfaulted hf]
    exact inv_of_answers hs hf (verdictEffect_answers v s)
  · rw [afterVerdict_halted hf]
    exact inv_respondHalted hs hf

/-- The reset signal clears the fault and keeps the responses. -/
theorem inv_resetSignal {s : State} (hs : Inv s) : Inv (resetSignal s) := by
  obtain ⟨-, hall, -⟩ := hs
  exact ⟨Nat.zero_le 6, hall, fun h => absurd rfl h⟩

/-- Settles O45: the reset signal and every verdict keep the invariant, and what is still to come of
the host's moves is no part of it. -/
theorem stepKeepsInvariant : Obligations.StepKeepsInvariant := by
  intro s t hs hstep
  have hinput (rest : List HostMove) : Inv (setInput rest s) := hs
  obtain ⟨rest, -, rfl⟩ | ⟨v, rest, -, rfl⟩ := step_cases hstep
  · exact inv_resetSignal (hinput rest)
  · exact inv_afterVerdict (hinput rest) v

/-! ## Two states side by side -/

/-- Two states with the same CRC_VALID, and the same CRC where it is set. -/
def CrcAgrees (s s' : State) : Prop :=
  s.crcValid = s'.crcValid ∧ (s.crcValid = true → s.crc = s'.crc)

/-- Two states with the same ADDR_VALID, and the same ADDR where it is set. -/
def AddrAgrees (s s' : State) : Prop :=
  s.addrValid = s'.addrValid ∧ (s.addrValid = true → s.addr = s'.addr)

/-- The two-state form of `effect_cases`: `t` and `t'` come from `s` and `s'` by one and the same
update, with the same response and the same value for each register written. -/
inductive SameUpdate (s s' : State) : State → State → Prop where
  | fault (c : Cause) : SameUpdate s s' (raiseFault c s) (raiseFault c s')
  | answer (r : Response) : SameUpdate s s' (returnResponse r s) (returnResponse r s')
  | initCrc (v : Word) : SameUpdate s s'
      (respond .ok [] (setCrcValid true (setCrc v s)))
      (respond .ok [] (setCrcValid true (setCrc v s')))
  | crc (v : Word) : SameUpdate s s' (respond .ok [] (setCrc v s)) (respond .ok [] (setCrc v s'))
  | addr (a : Byte) : SameUpdate s s'
      (respond .ok [] (setAddrValid true (setAddr a s)))
      (respond .ok [] (setAddrValid true (setAddr a s')))

/-- Where two states agree on what a command reads, it makes one update in both (R31). -/
theorem effect_sameUpdate {i : Instr} {s s' : State} (hcrc : readsCrc i = true → CrcAgrees s s')
    (haddr : readsAddr i = true → AddrAgrees s s') :
    SameUpdate s s' (effect i s) (effect i s') := by
  cases i with
  | crcReset => exact .initCrc _
  | crcPush data =>
    obtain ⟨hvalid, heq⟩ := hcrc rfl
    simp only [effect, crcPushEffect, ← hvalid]
    split
    · exact .fault _
    · rename_i h
      rw [← heq (by simpa using h)]
      exact .crc _
  | crcValue =>
    obtain ⟨hvalid, heq⟩ := hcrc rfl
    simp only [effect, crcValueEffect, ← hvalid]
    split
    · exact .fault _
    · rename_i h
      rw [← heq (by simpa using h)]
      exact .answer _
  | setAddr a => exact .addr a
  | encode fc payload =>
    obtain ⟨hvalid, heq⟩ := haddr rfl
    simp only [effect, encodeEffect, ← hvalid]
    split
    · exact .answer _
    · split
      · exact .fault _
      · rename_i h
        rw [← heq (by simpa using h)]
        exact .answer _
  | verify req resp =>
    simp only [effect, verifyEffect]
    split
    · exact .answer _
    · split
      · exact .fault _
      · split <;> exact .answer _
  | decode frame =>
    simp only [effect, decodeEffect]
    split
    · exact .fault _
    · split <;> exact .answer _

/-- The halted test comes out the same in two states with the same FAULT, and so does its answer. -/
theorem afterVerdict_sameUpdate {v : Verdict} {s s' : State} (hfault : s.fault = s'.fault)
    (h : SameUpdate s s' (verdictEffect v s) (verdictEffect v s')) :
    SameUpdate s s' (afterVerdict v s) (afterVerdict v s') := by
  by_cases hf : s.fault = 0#8
  · rwa [afterVerdict_unfaulted hf, afterVerdict_unfaulted (hfault ▸ hf)]
  · rw [afterVerdict_halted hf, afterVerdict_halted (hfault ▸ hf), respondHalted, respondHalted,
      ← hfault]
    exact .answer _

/-- Settles O36: a command that reads the same makes one update in both states. -/
theorem registersRead : Obligations.RegistersRead := by
  intro i s s' t t' hfault hcrc haddr ht ht'
  rw [exec_next, Host.Outcome.next.injEq] at ht ht'
  have hupdate : SameUpdate s s' t t' := by
    subst ht ht'
    exact afterVerdict_sameUpdate hfault (effect_sameUpdate
      (fun h => ⟨(hcrc h).2, fun _ => (hcrc h).1⟩) (fun h => ⟨(haddr h).2, fun _ => (haddr h).1⟩))
  cases hupdate <;> simp [hfault]

/-- One update in two states that the host cannot tell apart leaves two such states. -/
theorem SameUpdate.sameToHost {s s' t t' : State} (h : SameUpdate s s' t t')
    (hs : SameToHost s s') : SameToHost t t' := by
  obtain ⟨hcv, hcrc, hav, haddr, hfault, hinput, hresp⟩ := hs
  cases h with
  | fault c => exact ⟨hcv, hcrc, hav, haddr, rfl, hinput, by simp [hresp]⟩
  | answer r => exact ⟨hcv, hcrc, hav, haddr, hfault, hinput, by simp [hresp]⟩
  | initCrc v => exact ⟨rfl, fun _ => rfl, hav, haddr, hfault, hinput, by simp [hresp]⟩
  | crc v => exact ⟨hcv, fun _ => rfl, hav, haddr, hfault, hinput, by simp [hresp]⟩
  | addr a => exact ⟨hcv, hcrc, rfl, fun _ => rfl, hfault, hinput, by simp [hresp]⟩

/-- A verdict makes one update in two states that the host cannot tell apart. -/
theorem verdictEffect_sameUpdate (v : Verdict) {s s' : State} (hs : SameToHost s s') :
    SameUpdate s s' (verdictEffect v s) (verdictEffect v s') := by
  obtain ⟨hcv, hcrc, hav, haddr, -⟩ := hs
  cases v with
  | command i => exact effect_sameUpdate (fun _ => ⟨hcv, hcrc⟩) (fun _ => ⟨hav, haddr⟩)
  | illegal _ => exact .fault _
  | truncated => exact .fault _

theorem sameToHost_fault {s s' : State} (hs : SameToHost s s') : s.fault = s'.fault := by
  obtain ⟨-, -, -, -, hfault, -, -⟩ := hs
  exact hfault

theorem sameToHost_input {s s' : State} (hs : SameToHost s s') : s.input = s'.input := by
  obtain ⟨-, -, -, -, -, hinput, -⟩ := hs
  exact hinput

theorem sameToHost_setInput {s s' : State} (hs : SameToHost s s') (ms : List HostMove) :
    SameToHost (setInput ms s) (setInput ms s') := by
  obtain ⟨hcv, hcrc, hav, haddr, hfault, -, hresp⟩ := hs
  exact ⟨hcv, hcrc, hav, haddr, hfault, rfl, hresp⟩

/-- After the reset signal both registers are invalid, so what they hold is not seen (R200). -/
theorem sameToHost_resetSignal {s s' : State} (hs : SameToHost s s') :
    SameToHost (resetSignal s) (resetSignal s') := by
  obtain ⟨-, -, -, -, -, hinput, hresp⟩ := hs
  exact ⟨rfl, fun h => absurd h Bool.false_ne_true, rfl, fun h => absurd h Bool.false_ne_true,
    rfl, hinput, hresp⟩

theorem sameToHost_afterVerdict {s s' : State} (hs : SameToHost s s') (v : Verdict) :
    SameToHost (afterVerdict v s) (afterVerdict v s') :=
  (afterVerdict_sameUpdate (sameToHost_fault hs) (verdictEffect_sameUpdate v hs)).sameToHost hs

/-- Settles O46: both states fetch the same, and reset and every verdict keep the relation. -/
theorem invalidRegistersAreUnobservable : Obligations.InvalidRegistersAreUnobservable := by
  refine ⟨fun s s' t hs hstep => ?_, fun s s' r hs hstep => ?_⟩
  · have hrest := sameToHost_setInput hs
    obtain ⟨rest, hfetch, rfl⟩ | ⟨v, rest, hfetch, rfl⟩ := step_cases hstep <;>
      rw [sameToHost_input hs] at hfetch
    · exact ⟨_, step_of_reset hfetch, sameToHost_resetSignal (hrest rest)⟩
    · exact ⟨_, step_of_verdict hfetch, sameToHost_afterVerdict (hrest rest) v⟩
  · rw [step_refused_iff] at hstep ⊢
    rwa [← sameToHost_input hs]

/-! ## Which registers a command changes -/

/-- Settles O33: a halted block takes the reset signal or repeats its fault. -/
theorem onlyResetClearsFault : Obligations.OnlyResetClearsFault := by
  intro s t hf hstep
  obtain ⟨rest, hfetch, rfl⟩ | ⟨v, rest, -, rfl⟩ := step_cases hstep
  · exact .inl ⟨rest, hfetch, rfl, rfl⟩
  · have hhalted : (setInput rest s).fault ≠ 0#8 := hf
    rw [afterVerdict_halted hhalted]
    exact .inr ⟨rfl, rfl⟩

@[simp] theorem respondHalted_registers (s : State) :
    (respondHalted s).registers = s.registers := rfl

/-- Settles O35, by the shapes an effect can have: each writes only where the table has a w. -/
theorem registersWritten : Obligations.RegistersWritten := by
  intro i s t hexec
  by_cases hf : s.fault = 0#8
  · rw [exec_unfaulted hf, Host.Outcome.next.injEq] at hexec
    subst hexec
    obtain ⟨c, h⟩ | ⟨c, d, -, -, h⟩ | ⟨rfl, h⟩ | ⟨data, rfl, -, h⟩ | ⟨a, rfl, h⟩ :=
      effect_cases i s <;>
      simp [h, hf, writesCrc, writesCrcValid, writesAddr]
  · rw [exec_halted hf, Host.Outcome.next.injEq] at hexec
    subst hexec
    simp

/-- A verdict leaves a valid bit unless it is CRC_RESET, or SET_ADDR, which sets it (R22, R24). -/
theorem afterVerdict_validBits (v : Verdict) (s : State) :
    ((afterVerdict v s).crcValid = s.crcValid ∨
      (v = .command .crcReset ∧ (afterVerdict v s).crcValid = true)) ∧
    ((afterVerdict v s).addrValid = s.addrValid ∨
      ((∃ a, v = .command (.setAddr a)) ∧ (afterVerdict v s).addrValid = true)) := by
  by_cases hf : s.fault = 0#8
  · rw [afterVerdict_unfaulted hf]
    cases v with
    | command i =>
      obtain ⟨c, h⟩ | ⟨c, d, -, -, h⟩ | ⟨rfl, h⟩ | ⟨data, rfl, -, h⟩ | ⟨a, rfl, h⟩ :=
        effect_cases i s <;> simp [verdictEffect, h]
    | illegal _ => exact ⟨.inl rfl, .inl rfl⟩
    | truncated => exact ⟨.inl rfl, .inl rfl⟩
  · rw [afterVerdict_halted hf]
    exact ⟨.inl rfl, .inl rfl⟩

/-- Settles O37: the reset signal clears both bits, and a verdict can only set one. -/
theorem validBitsSetAndCleared : Obligations.ValidBitsSetAndCleared := by
  intro s t hstep
  obtain ⟨rest, hfetch, rfl⟩ | ⟨v, rest, hfetch, rfl⟩ := step_cases hstep
  · exact ⟨fun _ => .inr ⟨rest, hfetch⟩, fun _ => .inr ⟨rest, hfetch⟩,
      fun _ h => absurd h Bool.false_ne_true, fun _ h => absurd h Bool.false_ne_true⟩
  · obtain ⟨hcrc, haddr⟩ := afterVerdict_validBits v (setInput rest s)
    rw [setInput_crcValid] at hcrc
    rw [setInput_addrValid] at haddr
    refine ⟨fun h => .inl ?_, fun h => .inl ?_, fun h ht => ?_, fun h ht => ?_⟩
    · obtain hsame | ⟨-, hset⟩ := hcrc
      · rw [hsame, h]
      · exact hset
    · obtain hsame | ⟨-, hset⟩ := haddr
      · rw [hsame, h]
      · exact hset
    · obtain hsame | ⟨rfl, -⟩ := hcrc
      · simp [hsame, h] at ht
      · exact ⟨rest, hfetch⟩
    · obtain hsame | ⟨⟨a, rfl⟩, -⟩ := haddr
      · simp [hsame, h] at ht
      · exact ⟨a, rest, hfetch⟩

theorem pushedBytes_of_writesCrc_false {i : Instr} (h : writesCrc i = false) :
    pushedBytes [i] = [] := by
  cases i with
  | crcPush data => cases h
  | _ => rfl

/-- A command that is not CRC_RESET and raises no fault folds in what it pushes (R104). -/
theorem effect_crc {i : Instr} {s : State} (hi : i ≠ .crcReset) (hf : (effect i s).fault = 0#8) :
    (effect i s).crc = crcFold s.crc (pushedBytes [i]) := by
  obtain ⟨c, h⟩ | ⟨c, d, hw, -, h⟩ | ⟨rfl, -⟩ | ⟨data, rfl, -, h⟩ | ⟨a, rfl, h⟩ := effect_cases i s
  · simp [h] at hf
  · simp [h, pushedBytes_of_writesCrc_false hw]
  · exact absurd rfl hi
  · simp [h, pushedBytes]
  · simp [h, pushedBytes]

/-- A CRC_PUSH that raises no fault folds in its bytes (R104). -/
theorem effect_crcPush_crc {d : List Byte} {s : State}
    (hf : (effect (.crcPush d) s).fault = 0#8) :
    (effect (.crcPush d) s).crc = crcFold s.crc d := by
  have hne : Instr.crcPush d ≠ .crcReset := nofun
  simpa [pushedBytes] using effect_crc hne hf

/-- A push that changes the accumulator once changes it again: the fold is injective (R47, R104). -/
theorem effect_crcPush_twice_crc_ne {d : List Byte} {s : State}
    (hone : (effect (.crcPush d) s).fault = 0#8)
    (htwo : (effect (.crcPush d) (effect (.crcPush d) s)).fault = 0#8)
    (hne : crcFold s.crc d ≠ s.crc) :
    (effect (.crcPush d) (effect (.crcPush d) s)).crc ≠ (effect (.crcPush d) s).crc := by
  rw [effect_crcPush_crc htwo, effect_crcPush_crc hone]
  exact fun h => hne (crcFold_injective h)

/-- CRC_RESET and SET_ADDR write what no register decides (R47, R103, R121). -/
theorem afterVerdict_twice_registers {i : Instr} (hi : i = .crcReset ∨ ∃ a, i = .setAddr a)
    (s : State) :
    (afterVerdict (.command i) (afterVerdict (.command i) s)).registers =
      (afterVerdict (.command i) s).registers := by
  by_cases hf : s.fault = 0#8
  · have hf' : (effect i s).fault = 0#8 := by
      obtain rfl | ⟨a, rfl⟩ := hi <;> exact hf
    rw [afterVerdict_unfaulted hf, verdictEffect, afterVerdict_unfaulted hf']
    obtain rfl | ⟨a, rfl⟩ := hi <;> rfl
  · have hf' : (respondHalted s).fault ≠ 0#8 := hf
    rw [afterVerdict_halted hf, afterVerdict_halted hf', respondHalted_registers]

/-- A command without a w in R31 changes FAULT at most. -/
theorem afterVerdict_registers {i : Instr} (hcrc : writesCrc i = false)
    (haddr : writesAddr i = false) (s : State) :
    (afterVerdict (.command i) s).registers =
      { s.registers with fault := (afterVerdict (.command i) s).fault } := by
  by_cases hf : s.fault = 0#8
  · rw [afterVerdict_unfaulted hf, verdictEffect]
    obtain ⟨c, h⟩ | ⟨c, d, -, -, h⟩ | ⟨rfl, -⟩ | ⟨data, rfl, -⟩ | ⟨a, rfl, -⟩ := effect_cases i s
    · rw [h]; rfl
    · rw [h]; rfl
    · cases hcrc
    · cases hcrc
    · cases haddr
  · rw [afterVerdict_halted hf]
    rfl

/-- Settles O38; the push that is not idempotent is of one byte onto 0xFFFF. -/
theorem idempotentCommands : Obligations.IdempotentCommands := by
  refine ⟨fun i s t u hi ht hu => ?_, fun i s t hcrc haddr ht => ?_, ?_⟩
  · rw [exec_next, Host.Outcome.next.injEq] at ht hu
    subst ht hu
    exact afterVerdict_twice_registers hi s
  · rw [exec_next, Host.Outcome.next.injEq] at ht
    subst ht
    exact afterVerdict_registers hcrc haddr s
  · refine ⟨[0x11], { State.reset with crc := 0xFFFF, crcValid := true }, _, _,
      exec_unfaulted rfl, exec_unfaulted rfl, fun h => ?_⟩
    exact effect_crcPush_twice_crc_ne rfl rfl (by decide) (congrArg Registers.crc h)

/-! ## Runs -/

theorem runCommands_cons (i : Instr) (is : List Instr) (s : State) :
    runCommands (i :: is) s = runCommands is (afterVerdict (.command i) s) := by
  simp [runCommands, runVerdicts, execVerdict_next]

/-- No command clears FAULT (R25, R176). -/
theorem runCommands_halted {is : List Instr} {s t : State} (hf : s.fault ≠ 0#8)
    (hrun : runCommands is s = .next t) : t.fault = s.fault := by
  induction is generalizing s with
  | nil => cases hrun; rfl
  | cons i is ih =>
    rw [runCommands_cons, afterVerdict_halted hf] at hrun
    exact ih (s := respondHalted s) hf hrun

/-- A run of commands that ends unfaulted started unfaulted. -/
theorem runCommands_start_unfaulted {is : List Instr} {s t : State}
    (hrun : runCommands is s = .next t) (ht : t.fault = 0#8) : s.fault = 0#8 := by
  by_contra hf
  exact hf (runCommands_halted hf hrun ▸ ht)

/-- The first command of a run that ends unfaulted had its effect, without a fault. -/
theorem runCommands_head_unfaulted {i : Instr} {is : List Instr} {s t : State}
    (hrun : runCommands (i :: is) s = .next t) (ht : t.fault = 0#8) :
    (effect i s).fault = 0#8 ∧ runCommands is (effect i s) = .next t := by
  have hs := runCommands_start_unfaulted hrun ht
  rw [runCommands_cons, afterVerdict_unfaulted hs] at hrun
  exact ⟨runCommands_start_unfaulted hrun ht, hrun⟩

theorem pushedBytes_cons (i : Instr) (is : List Instr) :
    pushedBytes (i :: is) = pushedBytes [i] ++ pushedBytes is := by
  cases i <;> simp [pushedBytes]

/-- Along commands without CRC_RESET that end unfaulted, CRC folds in all that is pushed. -/
theorem runCommands_crc {is : List Instr} {s t : State} (hreset : Instr.crcReset ∉ is)
    (hrun : runCommands is s = .next t) (ht : t.fault = 0#8) :
    t.crc = crcFold s.crc (pushedBytes is) := by
  induction is generalizing s with
  | nil => cases hrun; rfl
  | cons i is ih =>
    obtain ⟨hi, his⟩ := not_or.mp (mt List.mem_cons.mpr hreset)
    obtain ⟨hf, htail⟩ := runCommands_head_unfaulted hrun ht
    rw [ih his htail, effect_crc (Ne.symm hi) hf, pushedBytes_cons i is, crcFold_append]

/-- Settles O41: the fold along a run, and after a CRC_RESET the fold from 0xFFFF. -/
theorem accumulatorCarriesOver : Obligations.AccumulatorCarriesOver := by
  refine ⟨fun is s t => runCommands_crc, fun is s t hreset hrun ht => ?_⟩
  obtain ⟨-, htail⟩ := runCommands_head_unfaulted hrun ht
  have hcrc : (effect .crcReset s).crc = Config.crcInit := rfl
  rw [runCommands_crc hreset htail ht, hcrc, crc16, crcOutput_eq]

end Sys2Proof.Proofs

namespace Sys2Proof.Proofs

open Sys2Proof.Machine Sys2Proof.Safety Sys2Proof.Laws

/-! ## The stream decoder's list of verdicts -/

/-- Only the empty stream decodes to no verdict (R67). -/
theorem decodeStream_eq_nil_iff {bs : List Byte} : decodeStream bs = [] ↔ bs = [] := by
  rw [← decodeNext_eq_none_iff, decodeStream_eq]
  cases decodeNext bs <;> simp

theorem decodeStream_eq_cons_iff {bs : List Byte} {v : Verdict} {vs : List Verdict} :
    decodeStream bs = v :: vs ↔
      ∃ rest, decodeNext bs = some (v, rest) ∧ decodeStream rest = vs := by
  rw [decodeStream_eq]
  cases decodeNext bs with
  | none => simp
  | some p => simp [Prod.ext_iff, and_assoc]

/-! ## Steps through a stream -/

@[simp] theorem pushBack_nil (ms : List HostMove) : pushBack [] ms = ms := rfl

theorem pushBack_of_ne_nil {bs : List Byte} (h : bs ≠ []) (ms : List HostMove) :
    pushBack bs ms = .send bs :: ms := if_neg h

/-- A step takes one verdict off the stream and puts the bytes after it back (R44, R67). -/
theorem step_of_send {s : State} {bs rest : List Byte} {ms : List HostMove} {v : Verdict}
    (hinput : s.input = .send bs :: ms) (hdec : decodeNext bs = some (v, rest)) :
    step s = .next (afterVerdict v (setInput (pushBack rest ms) s)) :=
  step_of_verdict (by simp [hinput, fetch, hdec])

/-- Settles O9: the verdict a step takes off the stream is the command. -/
theorem stepRunsDecodedCommand : Obligations.StepRunsDecodedCommand := by
  intro s bs rest ms i hinput hdec _
  rw [exec_next]
  exact step_of_send hinput hdec

/-- A verdict ignores the host's moves, so a step on a waiting stream is the verdict on the state
itself, with the rest of the stream waiting. -/
theorem step_setInput_pushBack {bs rest : List Byte} {v : Verdict}
    (hdec : decodeNext bs = some (v, rest)) (ms : List HostMove) (s : State) :
    step (setInput (pushBack bs ms) s) = .next (setInput (pushBack rest ms) (afterVerdict v s)) := by
  have hne : bs ≠ [] := fun h => by simp [decodeNext_eq_none_iff.mpr h] at hdec
  rw [step_of_send (pushBack_of_ne_nil hne ms) hdec, ← afterVerdict_setInput]
  rfl

theorem core_run_succ {s t : State} (h : step s = .next t) (k : Nat) :
    Host.Core.run core (k + 1) s = Host.Core.run core k t := by
  have hcore : core.step s = .next t := h
  simp only [Host.Core.run, hcore]

theorem runVerdicts_cons (v : Verdict) (vs : List Verdict) (s : State) :
    runVerdicts (v :: vs) s = runVerdicts vs (afterVerdict v s) := by
  simp [runVerdicts, execVerdict_next]

/-- Stepping through a stream that waits before the later moves, which may be empty: induction over
its verdicts. -/
theorem core_run_pushBack {vs : List Verdict} {bs : List Byte} (hvs : decodeStream bs = vs)
    (ms : List HostMove) (s : State) :
    Host.Core.run core vs.length (setInput (pushBack bs ms) s) =
      runVerdicts vs (setInput ms s) := by
  induction vs generalizing bs s with
  | nil =>
    rw [decodeStream_eq_nil_iff.mp hvs, pushBack_nil]
    rfl
  | cons v vs ih =>
    obtain ⟨rest, hdec, hrest⟩ := decodeStream_eq_cons_iff.mp hvs
    rw [List.length_cons, core_run_succ (step_setInput_pushBack hdec ms s), ih hrest,
      runVerdicts_cons, afterVerdict_setInput]

/-- Settles O12: the waiting stream is the host's next move. -/
theorem stepsOfStreamRunItsVerdicts : Obligations.StepsOfStreamRunItsVerdicts := by
  intro s bs ms hne hinput
  have hs : setInput (pushBack bs ms) s = s := by
    rw [pushBack_of_ne_nil hne, ← hinput]
    rfl
  have hrun := core_run_pushBack (bs := bs) rfl ms s
  rwa [hs] at hrun

end Sys2Proof.Proofs

namespace Sys2Proof.Proofs

open Sys2Proof.Machine Sys2Proof.Safety Sys2Proof.Laws

/-! ## A command as its opcode and its operand fields -/

/-- The opcode of a command (R64). -/
def opcode : Instr → Opcode
  | .crcReset => .crcReset
  | .crcPush _ => .crcPush
  | .crcValue => .crcValue
  | .setAddr _ => .setAddr
  | .encode _ _ => .encode
  | .verify _ _ => .verify
  | .decode _ => .decode

/-- The operand fields of a command, in the order of R64. -/
def operandBytes : Instr → List Byte
  | .crcReset => []
  | .crcPush data => encodeSeq data
  | .crcValue => []
  | .setAddr a => [a]
  | .encode fc payload => fc :: encodeSeq payload
  | .verify req resp => encodeSeq req ++ encodeSeq resp
  | .decode frame => encodeSeq frame

theorem encode_eq_cons (i : Instr) : encode i = (opcode i).byte :: operandBytes i := by
  cases i <;> rfl

/-- The field readers take the operand fields of a well-formed command off, and no byte more
(R63, R64). -/
theorem decodeOperands_operandBytes {i : Instr} (h : i.WellFormed) (rest : List Byte) :
    decodeOperands (opcode i) (operandBytes i ++ rest) = some (i, rest) := by
  cases i with
  | crcReset | crcValue | setAddr a => rfl
  | crcPush data =>
    have hdata := (fitsLen16_iff data).mp h
    simp [opcode, operandBytes, decodeOperands, readSeq_encodeSeq hdata]
  | encode fc payload =>
    have hpayload := (fitsLen16_iff payload).mp h
    simp [opcode, operandBytes, decodeOperands, readImm8, readSeq_encodeSeq hpayload]
  | verify req resp =>
    obtain ⟨hq, hr⟩ := Bool.and_eq_true_iff.mp h
    have hreq := (fitsLen16_iff req).mp hq
    have hresp := (fitsLen16_iff resp).mp hr
    simp [opcode, operandBytes, decodeOperands, readSeq_encodeSeq hreq, readSeq_encodeSeq hresp]
  | decode frame =>
    have hframe := (fitsLen16_iff frame).mp h
    simp [opcode, operandBytes, decodeOperands, readSeq_encodeSeq hframe]

/-- Settles O2: the opcode byte selects the opcode, and the field readers give the operands back. -/
theorem decodeOfEncode : Obligations.DecodeOfEncode := by
  intro i rest h
  rw [encode_eq_cons, List.cons_append]
  exact decodeNext_of_operands (decodeOperands_operandBytes h rest)

theorem readImm8_some {s rest : List Byte} {b : Byte} (h : readImm8 s = some (b, rest)) :
    s = b :: rest := by
  cases s with
  | nil => cases h
  | cons x xs => cases h; rfl

/-- What the field readers take off a stream are the operand fields of the command they give, and
that command is well formed (R63, R69). -/
theorem decodeOperands_some {o : Opcode} {s rest : List Byte} {i : Instr}
    (h : decodeOperands o s = some (i, rest)) :
    opcode i = o ∧ i.WellFormed ∧ s = operandBytes i ++ rest := by
  cases o with
  | crcReset | crcValue => cases h; exact ⟨rfl, rfl, rfl⟩
  | crcPush | decode =>
    obtain ⟨f, hf, he⟩ := Option.map_eq_some_iff.mp h
    cases he
    obtain ⟨hs, hlen⟩ := readSeq_some hf
    exact ⟨rfl, (fitsLen16_iff _).mpr hlen, hs⟩
  | setAddr =>
    obtain ⟨f, hf, he⟩ := Option.map_eq_some_iff.mp h
    cases he
    exact ⟨rfl, rfl, readImm8_some hf⟩
  | encode =>
    simp only [decodeOperands] at h
    split at h
    · cases h
    · rename_i fc tail hfc
      obtain ⟨f, hf, he⟩ := Option.map_eq_some_iff.mp h
      cases he
      obtain ⟨htail, hlen⟩ := readSeq_some hf
      refine ⟨rfl, (fitsLen16_iff _).mpr hlen, ?_⟩
      rw [readImm8_some hfc, htail]
      rfl
  | verify =>
    simp only [decodeOperands] at h
    split at h
    · cases h
    · rename_i req tail hreq
      obtain ⟨f, hf, he⟩ := Option.map_eq_some_iff.mp h
      cases he
      obtain ⟨hs, hlenq⟩ := readSeq_some hreq
      obtain ⟨htail, hlenr⟩ := readSeq_some hf
      refine ⟨rfl, Bool.and_eq_true_iff.mpr
        ⟨(fitsLen16_iff _).mpr hlenq, (fitsLen16_iff _).mpr hlenr⟩, ?_⟩
      rw [hs, htail, ← List.append_assoc]
      rfl

/-! ## The verdict at the head of a stream -/

/-- A byte that selects no opcode is ILLEGAL, and the stream ends there (R66, R67). -/
theorem decodeNext_of_opcodeOf_none {op : Byte} (h : opcodeOf op = none) (s : List Byte) :
    decodeNext (op :: s) = some (.illegal op, []) := by
  simp [decodeNext, h]

/-- Behind an assigned opcode byte stands a command or a stream that ends inside one (R67). -/
theorem decodeNext_byte_cases (o : Opcode) (s : List Byte) :
    decodeNext (o.byte :: s) = some (.truncated, []) ∨
      ∃ i rest, decodeNext (o.byte :: s) = some (.command i, rest) ∧
        decodeOperands o s = some (i, rest) := by
  cases h : decodeOperands o s with
  | none => exact .inl (by simp [decodeNext, h])
  | some f => exact .inr ⟨f.1, f.2, decodeNext_of_operands h, rfl⟩

/-- Settles O3: the head byte is the command's opcode, and the fields after it are its operands. -/
theorem encodeOfDecode : Obligations.EncodeOfDecode := by
  intro i bs rest h
  cases bs with
  | nil => cases h
  | cons op s =>
    cases hop : opcodeOf op with
    | none => simp [decodeNext_of_opcodeOf_none hop] at h
    | some o =>
      obtain rfl := opcodeOf_some hop
      obtain htrunc | ⟨j, tail, hcmd, hoperands⟩ := decodeNext_byte_cases o s
      · simp [htrunc] at h
      · rw [hcmd, Option.some.injEq, Prod.mk.injEq, Verdict.command.injEq] at h
        obtain ⟨rfl, rfl⟩ := h
        obtain ⟨rfl, hwf, rfl⟩ := decodeOperands_some hoperands
        exact ⟨hwf, by rw [encode_eq_cons, List.cons_append]⟩

/-! ## A stream that ends inside a command -/

/-- A command at the head of a cut-off encoding would head the whole one too, so there is none. -/
theorem decodeNext_take_encode {i : Instr} {k : Nat} (hwf : i.WellFormed) (hk : 0 < k)
    (hlt : k < (encode i).length) : decodeNext ((encode i).take k) = some (.truncated, []) := by
  obtain ⟨n, rfl⟩ := Nat.exists_eq_succ_of_ne_zero hk.ne'
  have htake : (encode i).take (n + 1) = (opcode i).byte :: (operandBytes i).take n := by
    rw [encode_eq_cons, List.take_succ_cons]
  obtain htrunc | ⟨j, rest, hcmd, -⟩ := decodeNext_byte_cases (opcode i) ((operandBytes i).take n)
  · rw [htake, htrunc]
  · rw [← htake] at hcmd
    obtain ⟨hj, hcut⟩ := encodeOfDecode j _ rest hcmd
    have hsplit : encode i ++ [] = encode j ++ (rest ++ (encode i).drop (n + 1)) := by
      rw [List.append_nil, ← List.append_assoc, ← hcut, List.take_append_drop]
    have hdec := decodeOfEncode i [] hwf
    rw [hsplit, decodeOfEncode j _ hj] at hdec
    have hrest : rest ++ (encode i).drop (n + 1) = [] := congrArg Prod.snd (Option.some.inj hdec)
    obtain ⟨-, hdrop⟩ := List.append_eq_nil_iff.mp hrest
    exact absurd (List.drop_eq_nil_iff.mp hdrop) (Nat.not_le.mpr hlt)

/-- A verdict that ends its stream runs alone: the step leaves the host's later moves. -/
theorem step_of_last_verdict {s : State} {bs : List Byte} {ms : List HostMove} {v : Verdict}
    (hf : s.fault = 0#8) (hinput : s.input = .send bs :: ms)
    (hdec : decodeNext bs = some (v, [])) :
    step s = .next (verdictEffect v (setInput ms s)) := by
  have hf' : (setInput ms s).fault = 0#8 := hf
  rw [step_of_send hinput hdec, pushBack_nil, afterVerdict_unfaulted hf']

/-- Settles O5: the cut-off encoding is TRUNCATED, and the step is its fault entry. -/
theorem cutOffCommandIsTruncated : Obligations.CutOffCommandIsTruncated := by
  intro i k hwf hk hlt
  have hdec := decodeNext_take_encode hwf hk hlt
  exact ⟨hdec, fun s ms hf hinput => step_of_last_verdict hf hinput hdec⟩

/-! ## All verdicts of a stream -/

theorem decodeStream_of_decodeNext {bs rest : List Byte} {v : Verdict}
    (h : decodeNext bs = some (v, rest)) : decodeStream bs = v :: decodeStream rest :=
  decodeStream_eq_cons_iff.mpr ⟨rest, h, rfl⟩

/-- Settles O6, by induction on the list of commands. -/
theorem streamDecodesToItsCommands : Obligations.StreamDecodesToItsCommands := by
  intro is tail hwf
  induction is with
  | nil => rfl
  | cons i is ih =>
    obtain ⟨hi, his⟩ := List.forall_mem_cons.mp hwf
    rw [List.flatMap_cons, List.append_assoc,
      decodeStream_of_decodeNext (decodeOfEncode i _ hi), ih his]
    rfl

/-- The verdict at the head of a stream is well formed (R66, R69). -/
theorem decodeNext_wellFormed {bs rest : List Byte} {v : Verdict}
    (h : decodeNext bs = some (v, rest)) : verdictWellFormed v = true := by
  cases v with
  | command i => exact (encodeOfDecode i bs rest h).1
  | truncated => rfl
  | illegal b =>
    cases bs with
    | nil => cases h
    | cons op s =>
      cases hop : opcodeOf op with
      | none =>
        rw [decodeNext_of_opcodeOf_none hop] at h
        cases h
        simp [verdictWellFormed, hop]
      | some o =>
        obtain rfl := opcodeOf_some hop
        obtain htrunc | ⟨i, tail, hcmd, -⟩ := decodeNext_byte_cases o s
        · simp [htrunc] at h
        · simp [hcmd] at h

/-- Every verdict of a stream is well formed: induction over the verdicts. -/
theorem decodeStream_wellFormed {vs : List Verdict} {bs : List Byte} (hvs : decodeStream bs = vs) :
    RunWellFormed vs := by
  induction vs generalizing bs with
  | nil => exact List.forall_mem_nil _
  | cons v vs ih =>
    obtain ⟨rest, hdec, hrest⟩ := decodeStream_eq_cons_iff.mp hvs
    exact List.forall_mem_cons.mpr ⟨decodeNext_wellFormed hdec, ih hrest⟩

/-- Settles O7: the verdict at the head is well formed, and so are those of the rest. -/
theorem streamVerdictsAreWellFormed : Obligations.StreamVerdictsAreWellFormed :=
  fun _ => decodeStream_wellFormed rfl

/-! ## Words and reserved bytes -/

/-- Settles O1: the commands' words are encodings, one head byte is reserved, and one word is a
VERIFY less its last byte. -/
theorem sampleWordsDecode : Obligations.SampleWordsDecode :=
  ⟨decodeOfEncode .crcReset [] rfl,
    decodeOfEncode (.crcPush [0x11, 0x03]) [0x03] rfl,
    decodeOfEncode .crcValue [] rfl,
    decodeOfEncode (.setAddr 0x11) [] rfl,
    decodeOfEncode (.encode 0x03 [0x00, 0x6B, 0x00, 0x03]) [] rfl,
    decodeOfEncode (.verify [0x11] [0x11, 0x03, 0x00, 0x00]) [] rfl,
    decodeOfEncode (.decode [0x01, 0x03, 0x21, 0x40]) [] rfl,
    decodeNext_of_opcodeOf_none (by decide) [0x03],
    decodeNext_take_encode (i := .verify [0x11] []) (k := 5) rfl (by decide) (by decide)⟩

/-- The assigned bytes are those of the opcode column (R66). -/
theorem opcodeOf_eq_none_iff_not_mem {b : Byte} :
    opcodeOf b = none ↔ b ∉ opcodeRows.map Opcode.byte := by
  have hrows (o : Opcode) : o ∈ opcodeRows := by cases o <;> decide
  rw [opcodeOf_none_iff]
  simp [hrows, eq_comm]

/-- Settles O4: a byte outside the opcode column selects no opcode, and one in it stands before a
command or a cut-off one. -/
theorem reservedOpcodesAreIllegal : Obligations.ReservedOpcodesAreIllegal := by
  have hillegal {op : Byte} (h : op ∉ opcodeRows.map Opcode.byte) (rest : List Byte) :
      decodeNext (op :: rest) = some (.illegal op, []) :=
    decodeNext_of_opcodeOf_none (opcodeOf_eq_none_iff_not_mem.mpr h) rest
  refine ⟨by decide +kernel, fun op rest h => hillegal h rest, fun op rest h b r => ?_,
    fun s op rest ms h hf hinput => step_of_last_verdict hf hinput (hillegal h rest)⟩
  obtain ⟨o, -, rfl⟩ := List.mem_map.mp (show op ∈ opcodeRows.map Opcode.byte from h)
  obtain htrunc | ⟨i, tail, hcmd, -⟩ := decodeNext_byte_cases o rest
  · simp [htrunc]
  · simp [hcmd]

end Sys2Proof.Proofs

namespace Sys2Proof.Proofs

open Sys2Proof.Machine Sys2Proof.Safety Sys2Proof.Laws

/-! ## The outcomes of each command, one equation a row of R177 -/

section
variable {s : State}

theorem effect_crcPush_uninit (h : s.crcValid = false) (d : List Byte) :
    effect (.crcPush d) s = raiseFault .crcUninit s := by
  simp [effect, crcPushEffect, h]

theorem effect_crcPush_ok (h : s.crcValid = true) (d : List Byte) :
    effect (.crcPush d) s = respond .ok [] (setCrc (crcFold s.crc d) s) := by
  simp [effect, crcPushEffect, h]

theorem effect_crcValue_uninit (h : s.crcValid = false) :
    effect .crcValue s = raiseFault .crcUninit s := by
  simp [effect, crcValueEffect, h]

theorem effect_crcValue_ok (h : s.crcValid = true) :
    effect .crcValue s = respond .ok (wordBytes s.crc) s := by
  simp [effect, crcValueEffect, h]

/-- The largest frame has 256 bytes, four of them around the payload (R7, R122). -/
theorem frameLength_gt_maxFrame_iff {p : List Byte} :
    frameLength p > Config.maxFrame ↔ 256 < p.length + 4 := Iff.rfl

theorem effect_encode_tooLarge {p : List Byte} (h : 256 < p.length + 4) (fc : Byte) :
    effect (.encode fc p) s = respond .frameTooLarge [] s := by
  simp [effect, encodeEffect, frameLength_gt_maxFrame_iff, h]

theorem effect_encode_addrUnset {p : List Byte} (h : p.length + 4 ≤ 256)
    (ha : s.addrValid = false) (fc : Byte) :
    effect (.encode fc p) s = raiseFault .addrUnset s := by
  simp [effect, encodeEffect, frameLength_gt_maxFrame_iff, Nat.not_lt.mpr h, ha]

theorem effect_encode_ok {p : List Byte} (h : p.length + 4 ≤ 256) (ha : s.addrValid = true)
    (fc : Byte) :
    effect (.encode fc p) s =
      respond .ok (len16Bytes (p.length + 4) ++ frameOf s.addr fc p) s := by
  have hfits : ¬ frameLength p > Config.maxFrame := Nat.not_lt.mpr h
  have hset : ¬ s.addrValid = false := by simp [ha]
  exact (if_neg hfits).trans (if_neg hset)

/-- Four bytes are the smallest response VERIFY reads (R7, R140). -/
theorem length_lt_minFrame_iff {r : List Byte} : r.length < Config.minFrame ↔ r.length < 4 :=
  Iff.rfl

theorem effect_verify_short {r : List Byte} (h : r.length < 4) (q : List Byte) :
    effect (.verify q r) s = respond .responseTooShort [] s := by
  simp [effect, verifyEffect, length_lt_minFrame_iff, h]

theorem effect_verify_noRequest {r : List Byte} (h : 4 ≤ r.length) :
    effect (.verify [] r) s = raiseFault .verifyNoRequest s := by
  simp [effect, verifyEffect, length_lt_minFrame_iff, Nat.not_lt.mpr h]

/-- The first bytes of two nonempty sequences are equal where both indexings of R11 say so. -/
theorem byteAt_zero_eq_iff {q r : List Byte} (hq : q ≠ []) (hr : r ≠ []) :
    byteAt r 0 = byteAt q 0 ↔ r[0]? = q[0]? := by
  obtain ⟨a, q, rfl⟩ := List.exists_cons_of_ne_nil hq
  obtain ⟨b, r, rfl⟩ := List.exists_cons_of_ne_nil hr
  simp [byteAt]

/-- VERIFY of a long enough response and a nonempty request compares the first bytes (R140). -/
theorem effect_verify_compare {q r : List Byte} (h : 4 ≤ r.length) (hq : q ≠ []) :
    effect (.verify q r) s =
      if r[0]? = q[0]? then respond .ok [] s else respond .unitMismatch [] s := by
  have hr : r ≠ [] := List.ne_nil_of_length_pos (by omega)
  simp [effect, verifyEffect, length_lt_minFrame_iff, Nat.not_lt.mpr h, hq,
    byteAt_zero_eq_iff hq hr]

/-- The length contract of R143. -/
theorem decode_length_iff {f : List Byte} :
    (f.length < Config.minFrame ∨ f.length > Config.maxFrame) ↔ f.length < 4 ∨ 256 < f.length :=
  Iff.rfl

theorem effect_decode_badLength {f : List Byte} (h : f.length < 4 ∨ 256 < f.length) :
    effect (.decode f) s = raiseFault .decodeLength s := by
  simp only [effect, decodeEffect, decode_length_iff, if_pos h]

/-- The checksum test of R141 as numbers: the last two bytes, high byte first. -/
theorem recomputed_eq_embedded_iff (f : List Byte) :
    recomputed f = embedded f ↔
      (crc16 (f.take (f.length - 2))).toNat =
        (f.getD (f.length - 2) 0).toNat * 256 + (f.getD (f.length - 1) 0).toNat := by
  rw [← BitVec.toNat_inj, embedded, checksumOfBytes_eq, wordOf_toNat]
  rfl

/-- DECODE of a frame whose length is in contract compares the checksums (R142). -/
theorem effect_decode_compare {f : List Byte} (hmin : 4 ≤ f.length) (hmax : f.length ≤ 256) :
    effect (.decode f) s =
      if recomputed f = embedded f then respond .ok (pduBytes f) s
      else respond .checksumMismatch [] s := by
  have hlen : ¬ (f.length < 4 ∨ 256 < f.length) := by omega
  simp only [effect, decodeEffect, decode_length_iff, if_neg hlen, ne_eq, ite_not]

end

/-- The result fields of an OK DECODE (R142). -/
theorem pduBytes_eq (f : List Byte) :
    pduBytes f = f.getD 1 0 :: BitVec.ofNat 8 ((f.length - 4) / 256) ::
      BitVec.ofNat 8 (f.length - 4) :: (f.drop 2).take (f.length - 4) := rfl

/-! ## What exec answers, as the statements write it -/

theorem exec_halted_withResponse (i : Instr) {s : State} (h : s.fault ≠ 0#8) :
    exec i s = .next (withResponse s (0x80 ||| s.fault) []) := exec_halted h

theorem exec_of_respond {i : Instr} {s : State} {c : Status} {d : List Byte} (hf : s.fault = 0#8)
    (h : effect i s = respond c d s) : exec i s = .next (withResponse s (statusCode c) d) := by
  rw [exec_unfaulted hf, h]
  rfl

theorem exec_of_raiseFault {i : Instr} {s : State} {c : Cause} (hf : s.fault = 0#8)
    (h : effect i s = raiseFault c s) :
    exec i s =
      .next (withResponse { s with fault := causeCode c } (faultStatus (causeCode c)) []) := by
  rw [exec_unfaulted hf, h]
  rfl

/-! ## The commands, one by one -/

/-- Settles O19, by the rows of VERIFY. -/
theorem verifyChecksLengthThenAddress : Obligations.VerifyChecksLengthThenAddress := by
  refine ⟨fun q r _ _ => rfl, fun q r s => exec_halted_withResponse _,
    fun q r s hf h => exec_of_respond hf (effect_verify_short h q), fun q r s hf h hq => ?_,
    fun q r s hf h hq hne => ?_, fun q r s hf h hq heq => ?_⟩
  · subst hq
    exact exec_of_raiseFault hf (effect_verify_noRequest h)
  · exact exec_of_respond hf ((effect_verify_compare h hq).trans (if_neg hne))
  · exact exec_of_respond hf ((effect_verify_compare h hq).trans (if_pos heq))

/-- Settles O20, by the rows of DECODE. -/
theorem decodeChecksThenExtracts : Obligations.DecodeChecksThenExtracts := by
  refine ⟨fun f _ => rfl, fun f s => exec_halted_withResponse _,
    fun f s hf h => exec_of_raiseFault hf (effect_decode_badLength h),
    fun f s hf hmin hmax hne => ?_, fun f s hf hmin hmax heq => ?_⟩
  · rw [ne_eq, ← recomputed_eq_embedded_iff] at hne
    exact exec_of_respond hf ((effect_decode_compare hmin hmax).trans (if_neg hne))
  · rw [← recomputed_eq_embedded_iff] at heq
    rw [← pduBytes_eq]
    exact exec_of_respond hf ((effect_decode_compare hmin hmax).trans (if_pos heq))

/-- CRC_PUSH on an initialised accumulator (R104). -/
theorem exec_crcPush_ok {s : State} (hf : s.fault = 0#8) (hv : s.crcValid = true)
    (d : List Byte) :
    exec (.crcPush d) s = .next (respond .ok [] (setCrc (crcFold s.crc d) s)) := by
  rw [exec_unfaulted hf, effect_crcPush_ok hv]

theorem exec_crcPush_next {s t : State} {d : List Byte} (hf : s.fault = 0#8)
    (hv : s.crcValid = true) (h : exec (.crcPush d) s = .next t) :
    t.fault = 0#8 ∧ t.crcValid = true ∧ t.crc = crcFold s.crc d := by
  rw [exec_crcPush_ok hf hv, Host.Outcome.next.injEq] at h
  subst h
  exact ⟨hf, hv, rfl⟩

/-- Settles O15, by the rows of CRC_PUSH and the running fold law. -/
theorem crcPushFoldsBytes : Obligations.CrcPushFoldsBytes := by
  refine ⟨fun d _ => rfl, fun d s => exec_halted_withResponse _,
    fun d s hf hv => exec_of_raiseFault hf (effect_crcPush_uninit hv d),
    fun d s hf hv => exec_crcPush_ok hf hv d, fun a b s t u hf hv ht hu => ?_, by decide⟩
  obtain ⟨htf, htv, htc⟩ := exec_crcPush_next hf hv ht
  obtain ⟨-, -, huc⟩ := exec_crcPush_next htf htv hu
  refine ⟨_, exec_crcPush_ok hf hv (a ++ b), ?_⟩
  rw [huc, htc]
  exact crcFold_append s.crc a b

/-- Settles O16, by the rows of CRC_VALUE. -/
theorem crcValueReturnsAccumulator : Obligations.CrcValueReturnsAccumulator :=
  ⟨rfl, fun _ => exec_halted_withResponse _,
    fun _ hf hv => exec_of_raiseFault hf (effect_crcValue_uninit hv),
    fun _ hf hv => exec_of_respond hf (effect_crcValue_ok hv), by decide +kernel, by decide⟩

/-- Settles O18, by the rows of ENCODE. -/
theorem encodeBuildsFrame : Obligations.EncodeBuildsFrame :=
  ⟨fun _ _ _ => rfl, fun _ _ _ => exec_halted_withResponse _,
    fun fc _ _ hf h => exec_of_respond hf (effect_encode_tooLarge h fc),
    fun fc _ _ hf h ha => exec_of_raiseFault hf (effect_encode_addrUnset h ha fc),
    fun fc _ _ hf h ha => exec_of_respond hf (effect_encode_ok h ha fc), by decide +kernel⟩

/-! ## The response of each command -/

/-- From `s` to `t` the block answers with one response, with a status from the command's row of
R177 and of the total length of R70. -/
def AnswersInRow (i : Instr) (s t : State) : Prop :=
  ∃ r, t.responses = s.responses ++ [r] ∧ r.status ∈ statusesOf i ∧
    (r.status = 0x00 → (responseBytes r).length = okTotal i) ∧
    (r.status ≠ 0x00 → responseBytes r = [r.status])

/-- An OK response has the status byte and the row's data. -/
theorem answersInRow_ok {i : Instr} {s u : State} {d : List Byte}
    (hresp : u.responses = s.responses) (hrow : 0x00 ∈ statusesOf i)
    (hlen : d.length + 1 = okTotal i) : AnswersInRow i s (respond .ok d u) :=
  ⟨⟨0x00, d⟩, by rw [respond_responses, hresp]; rfl, hrow, fun _ => hlen, fun h => absurd rfl h⟩

theorem statusCode_ne_zero {c : Status} (h : c ≠ .ok) : statusCode c ≠ 0x00 := by
  cases c with
  | ok => exact absurd rfl h
  | frameTooLarge | responseTooShort | unitMismatch | checksumMismatch => decide

/-- A response of another status is the status byte alone. -/
theorem answersInRow_bare {i : Instr} {s : State} {c : Status} (hc : c ≠ .ok)
    (hrow : statusCode c ∈ statusesOf i) : AnswersInRow i s (respond c [] s) :=
  ⟨_, respond_responses s c [], hrow, fun h => absurd h (statusCode_ne_zero hc), fun _ => rfl⟩

theorem faultStatus_causeCode_ne_zero (c : Cause) : faultStatus (causeCode c) ≠ 0x00 := by
  cases c <;> decide

/-- The response of a fault entry is its status byte alone, too. -/
theorem answersInRow_fault {i : Instr} {s : State} {c : Cause}
    (hrow : faultStatus (causeCode c) ∈ statusesOf i) : AnswersInRow i s (raiseFault c s) :=
  ⟨_, raiseFault_responses s c, hrow, fun h => absurd h (faultStatus_causeCode_ne_zero c),
    fun _ => rfl⟩

/-- Every command answers in its row: one case for each outcome of R177. -/
theorem effect_answersInRow (i : Instr) (s : State) : AnswersInRow i s (effect i s) := by
  cases i with
  | crcReset | setAddr a => exact answersInRow_ok rfl (.head _) rfl
  | crcPush data =>
    cases hv : s.crcValid with
    | false =>
      rw [effect_crcPush_uninit hv]
      exact answersInRow_fault (.head _)
    | true =>
      rw [effect_crcPush_ok hv]
      exact answersInRow_ok rfl (.tail _ (.head _)) rfl
  | crcValue =>
    cases hv : s.crcValid with
    | false =>
      rw [effect_crcValue_uninit hv]
      exact answersInRow_fault (.head _)
    | true =>
      rw [effect_crcValue_ok hv]
      exact answersInRow_ok rfl (.tail _ (.head _)) rfl
  | encode fc payload =>
    by_cases hlen : payload.length + 4 ≤ 256
    · cases ha : s.addrValid with
      | false =>
        rw [effect_encode_addrUnset hlen ha]
        exact answersInRow_fault (.tail _ (.head _))
      | true =>
        rw [effect_encode_ok hlen ha]
        refine answersInRow_ok rfl (.tail _ (.tail _ (.head _))) ?_
        have hdata : (len16Bytes (payload.length + 4) ++ frameOf s.addr fc payload).length =
            payload.length + 6 := encodeData_length s.addr fc payload
        rw [hdata, okTotal]
        omega
    · rw [effect_encode_tooLarge (Nat.not_le.mp hlen)]
      exact answersInRow_bare nofun (.head _)
  | verify req resp =>
    by_cases hlen : 4 ≤ resp.length
    · by_cases hq : req = []
      · rw [hq, effect_verify_noRequest hlen]
        exact answersInRow_fault (.tail _ (.head _))
      · rw [effect_verify_compare hlen hq]
        split
        · exact answersInRow_ok rfl (.tail _ (.tail _ (.tail _ (.head _)))) rfl
        · exact answersInRow_bare nofun (.tail _ (.tail _ (.head _)))
    · rw [effect_verify_short (Nat.not_le.mp hlen)]
      exact answersInRow_bare nofun (.head _)
  | decode frame =>
    by_cases hlen : frame.length < 4 ∨ 256 < frame.length
    · rw [effect_decode_badLength hlen]
      exact answersInRow_fault (.head _)
    · obtain ⟨hmin, hmax⟩ := not_or.mp hlen
      rw [Nat.not_lt] at hmin hmax
      rw [effect_decode_compare hmin hmax]
      split
      · refine answersInRow_ok rfl (.tail _ (.tail _ (.head _))) ?_
        rw [pduBytes_length hmin, okTotal]
        omega
      · exact answersInRow_bare nofun (.tail _ (.head _))

/-- Settles O40: an unfaulted block has the command's effect, which answers in its row. -/
theorem statusesOfEachCommand : Obligations.StatusesOfEachCommand := by
  intro i s hf
  obtain ⟨r, hanswer⟩ := effect_answersInRow i s
  exact ⟨effect i s, r, exec_unfaulted hf, hanswer⟩

end Sys2Proof.Proofs

namespace Sys2Proof.Proofs

open Sys2Proof.Machine Sys2Proof.Safety Sys2Proof.Laws

/-! ## The characters of a word -/

/-- A character that neither ends a word nor stands between words (R71). -/
def isWordChar (c : Char) : Bool :=
  c != ';' && !isBlank c && c != ',' && c != openBrace && c != closeBrace

theorem tokensFrom_wordChar {c : Char} (h : isWordChar c = true) (w cs : List Char) :
    tokensFrom w (c :: cs) = tokensFrom (w ++ [c]) cs := by
  simp only [isWordChar, Bool.and_eq_true, bne_iff_ne, Bool.not_eq_true'] at h
  obtain ⟨⟨⟨⟨hsemi, hblank⟩, hcomma⟩, hopen⟩, hclose⟩ := h
  simp [tokensFrom, hsemi, hblank, hcomma, hopen, hclose]

/-- Word characters are added to the word read so far. -/
theorem tokensFrom_word {v : List Char} (h : ∀ c ∈ v, isWordChar c = true) (w cs : List Char) :
    tokensFrom w (v ++ cs) = tokensFrom (w ++ v) cs := by
  induction v generalizing w with
  | nil => rw [List.append_nil, List.nil_append]
  | cons c v ih =>
    obtain ⟨hc, hv⟩ := List.forall_mem_cons.mp h
    rw [List.cons_append, tokensFrom_wordChar hc, ih hv, List.append_assoc, List.singleton_append]

/-! ## The characters between words -/

theorem tokensFrom_nil (w : List Char) : tokensFrom w [] = endWord w [] := rfl

theorem tokensFrom_blank (w cs : List Char) :
    tokensFrom w (' ' :: cs) = endWord w (tokensFrom [] cs) := rfl

theorem tokensFrom_comma (w cs : List Char) :
    tokensFrom w (',' :: cs) = endWord w (.comma :: tokensFrom [] cs) := rfl

theorem tokensFrom_openBrace (w cs : List Char) :
    tokensFrom w (openBrace :: cs) = endWord w (.opening :: tokensFrom [] cs) := rfl

theorem tokensFrom_closeBrace (w cs : List Char) :
    tokensFrom w (closeBrace :: cs) = endWord w (.closing :: tokensFrom [] cs) := rfl

@[simp] theorem endWord_nil (ts : List Token) : endWord [] ts = ts := rfl

theorem endWord_of_ne_nil {w : List Char} (h : w ≠ []) (ts : List Token) :
    endWord w ts = .word w :: ts := if_neg h

/-! ## Bytes -/

/-- The sixteen digits are word characters other than `*`, and they are read back. -/
theorem hexChar_spec {n : Nat} (h : n < 16) :
    hexDigit (hexChar n) = some n ∧ isWordChar (hexChar n) = true ∧ hexChar n ≠ '*' := by
  have hall : ∀ m : Fin 16, hexDigit (hexChar m) = some m.val ∧ isWordChar (hexChar m) = true ∧
      hexChar m ≠ '*' := by decide
  exact hall ⟨n, h⟩

theorem hexText_ne_nil (b : Byte) : hexText b ≠ [] := nofun

theorem hexText_digits {b : Byte} : ∀ c ∈ hexText b, ∃ n < 16, c = hexChar n := by
  have hb := b.isLt
  intro c hc
  obtain rfl | hc := List.mem_cons.mp hc
  · exact ⟨_, by omega, rfl⟩
  · exact ⟨_, Nat.mod_lt _ (by decide), List.mem_singleton.mp hc⟩

theorem hexText_isWordChar (b : Byte) : ∀ c ∈ hexText b, isWordChar c = true := by
  intro c hc
  obtain ⟨n, hn, rfl⟩ := hexText_digits c hc
  obtain ⟨-, hword, -⟩ := hexChar_spec hn
  exact hword

/-- The two digits of a byte are read back. -/
theorem hexByte_hexText (b : Byte) : hexByte (hexText b) = some b := by
  have hb := b.isLt
  obtain ⟨hhi, -⟩ := hexChar_spec (n := b.toNat / 16) (by omega)
  obtain ⟨hlo, -⟩ := hexChar_spec (n := b.toNat % 16) (Nat.mod_lt _ (by decide))
  simp [hexByte, hexText, hhi, hlo, Nat.div_add_mod']

/-- A byte of a sequence is read back as one item, since it has no `*`. -/
theorem seqItem_hexText (b : Byte) : seqItem (hexText b) = some [b] := by
  have hstar : ∀ c ∈ hexText b, (c != '*') = true := by
    intro c hc
    obtain ⟨n, hn, rfl⟩ := hexText_digits c hc
    obtain ⟨-, -, hne⟩ := hexChar_spec hn
    exact bne_iff_ne.mpr hne
  have hspan : (hexText b).span (· != '*') = (hexText b, []) := by
    rw [List.span_eq_takeWhile_dropWhile, List.takeWhile_eq_self_iff.mpr hstar,
      List.dropWhile_eq_nil_iff.mpr hstar]
  rw [seqItem, hspan]
  simp only [hexByte_hexText, Option.map_some]

theorem byteOperand_byteText (b : Byte) : byteOperand (byteText b) = some b := hexByte_hexText b

theorem byteText_isWordChar (b : Byte) : ∀ c ∈ byteText b, isWordChar c = true :=
  List.forall_mem_cons.mpr ⟨by decide, List.forall_mem_cons.mpr ⟨by decide, hexText_isWordChar b⟩⟩

/-! ## The tokens of operands -/

/-- A byte operand that a comma ends. -/
theorem tokensFrom_byteText_comma (b : Byte) (cs : List Char) :
    tokensFrom [] (byteText b ++ [',', ' '] ++ cs) =
      .word (byteText b) :: .comma :: tokensFrom [] cs := by
  rw [List.append_assoc, tokensFrom_word (byteText_isWordChar b)]
  rfl

/-- A byte operand that the line's end ends. -/
theorem tokensFrom_byteText (b : Byte) : tokensFrom [] (byteText b) = [.word (byteText b)] := by
  have h := tokensFrom_word (byteText_isWordChar b) [] []
  rwa [List.append_nil] at h

/-- The tokens of a byte sequence's items and its closing brace. -/
def itemTokens (s : List Byte) : List Token := s.map (fun b => .word (hexText b)) ++ [.closing]

/-- The tokens of a byte sequence in braces. -/
def seqTokens (s : List Byte) : List Token := .opening :: itemTokens s

/-- The items of a byte sequence, with a blank between two, and its closing brace. -/
theorem tokensFrom_items (s : List Byte) (cs : List Char) :
    tokensFrom [] (((s.map hexText).intersperse [' ']).flatten ++ closeBrace :: cs) =
      itemTokens s ++ tokensFrom [] cs := by
  induction s with
  | nil => rfl
  | cons b s ih =>
    have hb (cs : List Char) : tokensFrom [] (hexText b ++ cs) = tokensFrom (hexText b) cs :=
      tokensFrom_word (hexText_isWordChar b) [] cs
    cases s with
    | nil =>
      simp only [List.map_cons, List.map_nil, List.intersperse_singleton, List.flatten_cons,
        List.flatten_nil, List.append_nil, hb]
      rfl
    | cons b' s =>
      simp only [List.map_cons, List.intersperse_cons_cons, List.flatten_cons, List.append_assoc,
        hb] at ih ⊢
      rw [List.singleton_append, tokensFrom_blank, ih]
      rfl

/-- A byte sequence in braces, with more of the line after it. -/
theorem tokensFrom_seqText_append (s : List Byte) (cs : List Char) :
    tokensFrom [] (seqText s ++ cs) = seqTokens s ++ tokensFrom [] cs := by
  have h : seqText s ++ cs =
      openBrace :: (((s.map hexText).intersperse [' ']).flatten ++ closeBrace :: cs) := by
    simp [seqText]
  rw [h, tokensFrom_openBrace, tokensFrom_items]
  rfl

theorem tokensFrom_seqText (s : List Byte) : tokensFrom [] (seqText s) = seqTokens s := by
  have h := tokensFrom_seqText_append s []
  rwa [List.append_nil, tokensFrom_nil, endWord_nil, List.append_nil] at h

/-! ## Operands, read back from their tokens -/

theorem seqItems_itemTokens (s : List Byte) (ts : List Token) :
    seqItems (itemTokens s ++ ts) = some (s, ts) := by
  induction s with
  | nil => rfl
  | cons b s ih =>
    have h : itemTokens (b :: s) ++ ts = .word (hexText b) :: (itemTokens s ++ ts) := rfl
    rw [h, seqItems, seqItem_hexText, ih]
    rfl

theorem seqOperand_seqTokens (s : List Byte) (ts : List Token) :
    seqOperand (seqTokens s ++ ts) = some (s, ts) := seqItems_itemTokens s ts

theorem wordOperand_byteText (b : Byte) (ts : List Token) :
    wordOperand (.word (byteText b) :: ts) = some (b, ts) := by
  rw [wordOperand, byteOperand_byteText]
  rfl

theorem oneSeq_seqTokens (s : List Byte) : oneSeq (seqTokens s) = some s := by
  have h := seqOperand_seqTokens s []
  rw [List.append_nil] at h
  simp [oneSeq, h, atEnd]

theorem twoSeqs_seqTokens (q r : List Byte) :
    twoSeqs (seqTokens q ++ .comma :: seqTokens r) = some (q, r) := by
  simp [twoSeqs, seqOperand_seqTokens, afterComma, oneSeq_seqTokens]

theorem byteAndSeq_tokens (b : Byte) (p : List Byte) :
    byteAndSeq (.word (byteText b) :: .comma :: seqTokens p) = some (b, p) := by
  simp [byteAndSeq, wordOperand_byteText, afterComma, oneSeq_seqTokens]

theorem oneByte_tokens (b : Byte) : oneByte [.word (byteText b)] = some b := by
  simp [oneByte, wordOperand_byteText, atEnd]

theorem twoBytesAndSeq_tokens (a fc : Byte) (p : List Byte) :
    twoBytesAndSeq (.word (byteText a) :: .comma :: .word (byteText fc) :: .comma :: seqTokens p) =
      some (a, fc, p) := by
  simp [twoBytesAndSeq, wordOperand_byteText, afterComma, byteAndSeq_tokens]

/-! ## Lines -/

theorem mnemonic_text_isWordChar (m : Mnemonic) : ∀ c ∈ m.text, isWordChar c = true := by
  have hall : m.text.all isWordChar = true := by cases m <;> decide
  exact List.all_eq_true.mp hall

/-- A mnemonic's text selects that mnemonic. -/
theorem find_mnemonic_text (m : Mnemonic) :
    (mnemonics.find? fun k => k.text == m.text) = some m := by
  cases m <;> decide

/-- A line of a mnemonic and operands that it takes assembles to what they stand for. -/
theorem assembleLine_of_tokens {line : List Char} {m : Mnemonic} {ts : List Token}
    {is : List Instr} (htokens : tokens line = .word m.text :: ts)
    (hoperands : assembleOperands m ts = some is) (hwf : ∀ i ∈ is, i.WellFormed) :
    assembleLine line = some is := by
  have hall : is.all Instr.wellFormed = true := List.all_eq_true.mpr hwf
  simp [assembleLine, htokens, find_mnemonic_text, hoperands, hall]

/-- A mnemonic alone on its line. -/
theorem tokens_mnemonic (m : Mnemonic) : tokens m.text = [.word m.text] := by
  have h := tokensFrom_word (mnemonic_text_isWordChar m) [] []
  rw [List.append_nil] at h
  rw [tokens, h]
  cases m <;> rfl

/-- A mnemonic and a blank before its operands. -/
theorem tokens_mnemonic_blank (m : Mnemonic) (cs : List Char) :
    tokens (m.text ++ ' ' :: cs) = .word m.text :: tokensFrom [] cs := by
  rw [tokens, tokensFrom_word (mnemonic_text_isWordChar m)]
  cases m <;> rfl

/-- A line of a mnemonic, a blank and operands, assembled from the operands' tokens. -/
theorem assembleLine_of_operands {m : Mnemonic} {cs : List Char} {ts : List Token}
    {is : List Instr} (htokens : tokensFrom [] cs = ts)
    (hoperands : assembleOperands m ts = some is)
    (hwf : ∀ i ∈ is, i.WellFormed) : assembleLine (m.text ++ ' ' :: cs) = some is :=
  assembleLine_of_tokens ((tokens_mnemonic_blank m cs).trans (by rw [htokens])) hoperands hwf

/-- Settles O47: each operand form is written with the tokens its reader takes. -/
theorem assemblerReadsWrittenCommands : Obligations.AssemblerReadsWrittenCommands := by
  intro i hwf
  have hone : ∀ j ∈ [i], j.WellFormed := List.forall_mem_singleton.mpr hwf
  cases i with
  | crcReset => exact assembleLine_of_tokens (tokens_mnemonic .crcReset) rfl hone
  | crcValue => exact assembleLine_of_tokens (tokens_mnemonic .crcValue) rfl hone
  | crcPush data =>
    exact assembleLine_of_operands (m := .crcPush) (tokensFrom_seqText data)
      (congrArg (Option.map _) (oneSeq_seqTokens data)) hone
  | decode frame =>
    exact assembleLine_of_operands (m := .decode) (tokensFrom_seqText frame)
      (congrArg (Option.map _) (oneSeq_seqTokens frame)) hone
  | setAddr a =>
    exact assembleLine_of_operands (m := .setAddr) (tokensFrom_byteText a)
      (congrArg (Option.map _) (oneByte_tokens a)) hone
  | encode fc payload =>
    have htokens := tokensFrom_byteText_comma fc (seqText payload)
    rw [tokensFrom_seqText] at htokens
    exact assembleLine_of_operands (m := .encode) htokens
      (congrArg (Option.map _) (byteAndSeq_tokens fc payload)) hone
  | verify req resp =>
    have htokens : tokensFrom [] (seqText req ++ [',', ' '] ++ seqText resp) =
        seqTokens req ++ .comma :: seqTokens resp := by
      rw [List.append_assoc, tokensFrom_seqText_append, ← tokensFrom_seqText resp]
      rfl
    exact assembleLine_of_operands (m := .verify) htokens
      (congrArg (Option.map _) (twoSeqs_seqTokens req resp)) hone

/-! ## Pseudo-instructions -/

theorem runCommands_cons_unfaulted {s : State} (hf : s.fault = 0#8) (i : Instr)
    (is : List Instr) : runCommands (i :: is) s = runCommands is (effect i s) := by
  rw [runCommands_cons, afterVerdict_unfaulted hf]
  rfl

theorem runCommands_crcValue {s : State} (hf : s.fault = 0#8) (hv : s.crcValid = true) :
    runCommands [.crcValue] s = .next (respond .ok (wordBytes s.crc) s) := by
  rw [runCommands_cons_unfaulted hf, effect_crcValue_ok hv]
  rfl

/-- CRC_PUSH and CRC_VALUE on an initialised accumulator (R104, R105). -/
theorem runCommands_crcPush_crcValue {s : State} (hf : s.fault = 0#8) (hv : s.crcValid = true)
    (d : List Byte) :
    ∃ t, runCommands [.crcPush d, .crcValue] s = .next t ∧
      t.responses = s.responses ++ [⟨0x00, []⟩, ⟨0x00, wordBytes (crcFold s.crc d)⟩] := by
  rw [runCommands_cons_unfaulted hf, effect_crcPush_ok hv]
  exact ⟨_, runCommands_crcValue hf hv, List.append_assoc _ _ _⟩

/-- The commands of CRC_OF and their responses on an unfaulted block (R72, R103). -/
theorem runCommands_crcOf {s : State} (hf : s.fault = 0#8) (d : List Byte) :
    ∃ t, runCommands (crcOf d) s = .next t ∧
      t.responses = s.responses ++ [⟨0x00, []⟩, ⟨0x00, []⟩, ⟨0x00, wordBytes (crc16 d)⟩] := by
  have hrf : (effect .crcReset s).fault = 0#8 := hf
  obtain ⟨t, hrun, hresp⟩ := runCommands_crcPush_crcValue hrf rfl d
  refine ⟨t, (runCommands_cons_unfaulted hf _ _).trans hrun, ?_⟩
  rw [hresp, crc16, crcOutput_eq]
  exact List.append_assoc _ _ _

/-- Settles O48: the two lines assemble by the tokens of their operands, and CRC_OF's commands end
in CRC_VALUE's response. -/
theorem pseudoInstructionsExpand : Obligations.PseudoInstructionsExpand := by
  refine ⟨fun d hd => ?_, fun a fc p hp => ?_, fun d s hf => ?_⟩
  · have hwf : ∀ i ∈ crcOf d, i.WellFormed := by
      simp [crcOf, Instr.WellFormed, Instr.wellFormed, hd]
    exact assembleLine_of_operands (m := .crcOf) (tokensFrom_seqText d)
      (congrArg (Option.map _) (oneSeq_seqTokens d)) hwf
  · have hwf : ∀ i ∈ encodeTo a fc p, i.WellFormed := by
      simp [encodeTo, Instr.WellFormed, Instr.wellFormed, hp]
    have htokens := tokensFrom_byteText_comma a (byteText fc ++ [',', ' '] ++ seqText p)
    rw [tokensFrom_byteText_comma fc, tokensFrom_seqText] at htokens
    exact assembleLine_of_operands (m := .encodeTo) htokens
      (congrArg (Option.map _) (twoBytesAndSeq_tokens a fc p)) hwf
  · obtain ⟨t, hrun, hresp⟩ := runCommands_crcOf hf d
    exact ⟨t, hrun, by rw [hresp, List.getLast?_append]; rfl⟩

end Sys2Proof.Proofs


namespace Sys2Proof.Proofs

open Sys2Proof.Machine Sys2Proof.Safety Sys2Proof.Laws

/-! ## The checksum function -/

/-- The model's loop as an iterate of its one turn. -/
theorem crcShifts_eq_iterate (k : Nat) (c : Word) : crcShifts k c = crcShift^[k] c := by
  induction k generalizing c with
  | zero => rfl
  | succ k ih => rw [crcShifts, ih, Function.iterate_succ_apply]

/-- Settles O21: the loop of crcStep is eight iterates of crcShift. -/
theorem crcStepIsShiftLoop : Obligations.CrcStepIsShiftLoop :=
  ⟨fun c b => crcShifts_eq_iterate 8 (c ^^^ b.setWidth 16), by decide⟩

/-- Settles O22, by running the model on each vector. -/
theorem checksumValues : Obligations.ChecksumValues :=
  ⟨by decide, by decide +kernel, by decide +kernel, by decide +kernel, by decide +kernel,
    by decide +kernel, by decide +kernel, by decide +kernel⟩

/-- There is no final xor, so the checksum is the fold itself (R101). -/
theorem crc16_eq_crcFold (s : List Byte) : crc16 s = crcFold Config.crcInit s := crcOutput_eq _

/-- Settles O23: a fold over an append is a fold continued. -/
theorem runningFold : Obligations.RunningFold :=
  ⟨fun c a b => (crcFold_append c a b).symm, crc16_eq_crcFold, fun _ _ => rfl⟩

/-- The fold is linear in the accumulator and the data together (R145). -/
theorem crcFold_zipWith_xor {x e : List Byte} (h : x.length = e.length) (c d : Word) :
    crcFold (c ^^^ d) (List.zipWith (· ^^^ ·) x e) = crcFold c x ^^^ crcFold d e := by
  induction x generalizing e c d with
  | nil =>
    obtain rfl : e = [] := List.length_eq_zero_iff.mp h.symm
    rfl
  | cons b x ih =>
    obtain ⟨b', e, rfl⟩ := List.exists_cons_of_length_eq_add_one h.symm
    simp only [List.zipWith_cons_cons, crcFold_cons, crcStep_xor]
    exact ih (Nat.succ.inj h) _ _

/-- Settles O24: the fold's linearity, with the difference folded from zero. -/
theorem checksumIsAffine : Obligations.ChecksumIsAffine := by
  intro x e h
  simpa [crc16_eq_crcFold] using crcFold_zipWith_xor h Config.crcInit 0

/-! ## CRC_RESET -/

/-- CRC_RESET on an unfaulted block (R103). -/
theorem exec_crcReset_unfaulted {s : State} (hf : s.fault = 0#8) :
    exec .crcReset s = .next (withResponse { s with crc := 0xFFFF, crcValid := true } 0x00 []) :=
  exec_unfaulted hf

/-- Settles O14: CRC_RESET's effect, which sets the same registers the second time. -/
theorem crcResetReinitialises : Obligations.CrcResetReinitialises := by
  refine ⟨rfl, fun s => exec_halted_withResponse _, fun s => exec_crcReset_unfaulted,
    fun s t hf ht => ?_⟩
  rw [exec_crcReset_unfaulted hf, Host.Outcome.next.injEq] at ht
  subst ht
  exact ⟨_, exec_crcReset_unfaulted hf, rfl⟩

/-! ## The commands that compute a checksum -/

/-- SET_ADDR and ENCODE of a payload that fits, and their responses (R121, R122). -/
theorem runCommands_encodeTo {s : State} (hf : s.fault = 0#8) {p : List Byte}
    (hp : p.length + 4 ≤ 256) (a fc : Byte) :
    ∃ t, runCommands (encodeTo a fc p) s = .next t ∧
      t.responses = s.responses ++
        [⟨0x00, []⟩, ⟨0x00, len16Bytes (p.length + 4) ++ frameOf a fc p⟩] := by
  have haf : (effect (.setAddr a) s).fault = 0#8 := hf
  have hav : (effect (.setAddr a) s).addrValid = true := rfl
  rw [encodeTo, runCommands_cons_unfaulted hf, runCommands_cons_unfaulted haf,
    effect_encode_ok hp hav]
  exact ⟨_, rfl, List.append_assoc _ _ _⟩

/-- DECODE of covered bytes and two more compares these two with the checksum (R141, R142). -/
theorem effect_decode_covered {d : List Byte} (hmin : 2 ≤ d.length) (hmax : d.length ≤ 254)
    (x y : Byte) (s : State) :
    effect (.decode (d ++ [x, y])) s =
      if crc16 d = wordOf x y then respond .ok (pduBytes (d ++ [x, y])) s
      else respond .checksumMismatch [] s := by
  have hlen : (d ++ [x, y]).length = d.length + 2 := List.length_append
  rw [effect_decode_compare (by omega) (by omega), recomputed_covered, embedded_covered]

/-- Settles O25: CRC_OF's commands, ENCODE's frame, and DECODE's comparison. -/
theorem checksumCommandsReturnCrc16 : Obligations.ChecksumCommandsReturnCrc16 := by
  refine ⟨fun d s hf => runCommands_crcOf hf d, fun a fc p s hf hp => ?_,
    fun d x y s hf hmin hmax => ?_⟩
  · obtain ⟨t, hrun, hresp⟩ := runCommands_encodeTo hf (Nat.add_le_add_right hp 4) a fc
    refine ⟨t, hrun, len16Bytes (p.length + 4), ?_, rfl⟩
    rw [hresp, List.append_assoc]
    rfl
  · rw [exec_unfaulted hf, effect_decode_covered hmin hmax, ← wordOf_toNat, BitVec.toNat_inj]
    by_cases h : crc16 d = wordOf x y
    · rw [if_pos h]
      exact ⟨_, _, rfl, rfl, iff_of_true rfl h⟩
    · rw [if_neg h]
      exact ⟨_, _, rfl, rfl, iff_of_false (by decide) h⟩

/-! ## Errors in a frame -/

/-- A frame passes its own checksum test (R144). -/
theorem recomputed_frameOf (a fc : Byte) (p : List Byte) :
    recomputed (frameOf a fc p) = embedded (frameOf a fc p) := by
  rw [frameOf, checksumBytes_eq, recomputed_covered, embedded_covered, wordOf_bytes]

/-- A checksum test that passes fails after any one byte is changed: a covered byte changes the
recomputed value alone, and a checksum byte changes the embedded value alone. -/
theorem recomputed_ne_embedded_of_byte_ne {pre post : List Byte} {b c : Byte} (hbc : b ≠ c)
    (hlen : 2 ≤ (pre ++ b :: post).length)
    (hok : recomputed (pre ++ b :: post) = embedded (pre ++ b :: post)) :
    recomputed (pre ++ c :: post) ≠ embedded (pre ++ c :: post) := by
  intro hbad
  match post with
  | [] =>
    obtain rfl | ⟨g, x, rfl⟩ := pre.eq_nil_or_concat'
    · simp at hlen
    · simp only [List.append_assoc, List.singleton_append, recomputed_covered,
        embedded_covered] at hok hbad
      exact hbc (wordOf_inj (hok.symm.trans hbad)).2
  | [y] =>
    rw [recomputed_covered, embedded_covered] at hok hbad
    exact hbc (wordOf_inj (hok.symm.trans hbad)).1
  | y₁ :: y₂ :: ys =>
    obtain ⟨q, x, y, hq, -⟩ := frame_split (f := y₁ :: y₂ :: ys) (by simp)
    simp only [hq, ← List.cons_append, ← List.append_assoc, recomputed_covered,
      embedded_covered, crc16_eq_crcFold] at hok hbad
    exact hbc (crcFold_byte_injective (hok.trans hbad.symm))

/-- A mask of one bit inside a byte is not zero. -/
theorem one_shiftLeft_ne_zero : ∀ j < 8, (1#8 <<< j) ≠ 0#8 := by decide

/-- Inverting one bit changes one byte and nothing around it. -/
theorem flipBit_eq {f : List Byte} {k j : Nat} (hk : k < f.length) (hj : j < 8) :
    ∃ pre b c post, b ≠ c ∧ f = pre ++ b :: post ∧ flipBit f k j = pre ++ c :: post := by
  obtain ⟨pre, b, post, hf, -, hflip⟩ := List.exists_of_modify (· ^^^ (1#8 <<< j)) hk
  refine ⟨pre, b, _, post, fun h => one_shiftLeft_ne_zero j hj ?_, hf, hflip⟩
  rwa [← BitVec.xor_right_inj b, BitVec.xor_zero, eq_comm]

theorem flipBit_length (f : List Byte) (k j : Nat) : (flipBit f k j).length = f.length :=
  List.length_modify _ _ _

/-- A checksum test that passes fails after any one bit is inverted (R145). -/
theorem recomputed_flipBit_ne_embedded {f : List Byte} {k j : Nat} (hlen : 2 ≤ f.length)
    (hok : recomputed f = embedded f) (hk : k < f.length) (hj : j < 8) :
    recomputed (flipBit f k j) ≠ embedded (flipBit f k j) := by
  obtain ⟨pre, b, c, post, hbc, rfl, hflip⟩ := flipBit_eq hk hj
  rw [hflip]
  exact recomputed_ne_embedded_of_byte_ne hbc hlen hok

/-- Settles O28: the inverted bit leaves the frame's length in contract and fails its checksum
test. -/
theorem singleBitErrorIsDetected : Obligations.SingleBitErrorIsDetected := by
  intro a fc p k j s hf hp hk hj
  have hframe := frameOf_length a fc p
  have hlen := (flipBit_length (frameOf a fc p) k j).trans hframe
  have hbad := recomputed_flipBit_ne_embedded (by omega) (recomputed_frameOf a fc p) hk hj
  have hcompare := effect_decode_compare (s := s) (f := flipBit (frameOf a fc p) k j)
    (by omega) (by omega)
  exact exec_of_respond hf (hcompare.trans (if_neg hbad))

end Sys2Proof.Proofs

namespace Sys2Proof.Proofs

open Sys2Proof.Machine Sys2Proof.Safety Sys2Proof.Laws

/-! ## The frame of an address, a function code and a payload -/

/-- The layout of R120, with the covered bytes written out. -/
theorem frameOf_eq (a fc : Byte) (p : List Byte) :
    frameOf a fc p =
      (a :: fc :: p) ++ [hiByte (crc16 (a :: fc :: p)), loByte (crc16 (a :: fc :: p))] := by
  rw [frameOf, checksumBytes_eq, coveredBytes]

/-- Settles O8: the checksum bytes of a frame are the two bytes of R10, high byte first. -/
theorem frameOfLayout : Obligations.FrameOfLayout := fun a fc p _ => frameOf_eq a fc p

/-- The payload stands behind the address and the function code. -/
theorem frameOf_payload (a fc : Byte) (p : List Byte) :
    ((frameOf a fc p).drop 2).take p.length = p := by
  rw [frameOf_eq]
  exact List.take_left

/-- The last two bytes of a frame are the checksum of those before them, high byte first. -/
theorem frameOf_checksum (a fc : Byte) (p : List Byte) :
    ((frameOf a fc p).getD (p.length + 2) 0).toNat * 256 +
        ((frameOf a fc p).getD (p.length + 3) 0).toNat =
      (crc16 ((frameOf a fc p).take (p.length + 2))).toNat := by
  have hsum := (recomputed_eq_embedded_iff _).mp (recomputed_frameOf a fc p)
  rw [frameOf_length] at hsum
  exact hsum.symm

/-- Settles O26: the frame is that of ADDR, part by part. -/
theorem encodedFrameParts : Obligations.EncodedFrameParts := by
  intro fc p s hf ha hp
  have hencode := exec_of_respond hf (effect_encode_ok (Nat.add_le_add_right hp 4) ha fc)
  refine ⟨_, frameOf s.addr fc p, hencode, ?_, frameOf_length _ _ _, rfl, rfl,
    frameOf_payload _ _ _, frameOf_checksum _ _ _⟩
  rw [frameOf_length]
  rfl

/-! ## A frame decoded again -/

/-- DECODE's result fields for a frame are its function code and its payload (R142, R144). -/
theorem pduBytes_frameOf (a fc : Byte) (p : List Byte) :
    pduBytes (frameOf a fc p) = fc :: (len16Bytes p.length ++ p) := by
  rw [pduBytes_eq, frameOf_length, Nat.add_sub_cancel, frameOf_payload]
  rfl

/-- DECODE of a frame passes the length and the checksum test (R144). -/
theorem effect_decode_frameOf {p : List Byte} (hp : p.length ≤ 252) (a fc : Byte) (s : State) :
    effect (.decode (frameOf a fc p)) s = respond .ok (fc :: (len16Bytes p.length ++ p)) s := by
  have hlen := frameOf_length a fc p
  rw [effect_decode_compare (by omega) (by omega), if_pos (recomputed_frameOf a fc p),
    pduBytes_frameOf]

/-- Settles O27: DECODE accepts the frame and returns what it was built from. -/
theorem decodeOfFrameRoundTrip : Obligations.DecodeOfFrameRoundTrip :=
  fun a fc _ s hf hp => exec_of_respond hf (effect_decode_frameOf hp a fc s)

/-! ## SET_ADDR and an exchange -/

/-- Settles O17: SET_ADDR tests nothing but the halted block. -/
theorem setAddrHoldsAddress : Obligations.SetAddrHoldsAddress :=
  ⟨fun _ => rfl, fun _ _ => exec_halted_withResponse _, fun _ _ hf => exec_unfaulted hf⟩

/-- A frame verified against itself has the address it is asked for (R140). -/
theorem effect_verify_self {f : List Byte} (h : 4 ≤ f.length) (s : State) :
    effect (.verify f f) s = respond .ok [] s := by
  have hne : f ≠ [] := List.ne_nil_of_length_pos (by omega)
  rw [effect_verify_compare h hne, if_pos rfl]

/-- A command that only responds hands its state on to the rest of the run (R49). -/
theorem runCommands_cons_respond {i : Instr} {s : State} {c : Status} {d : List Byte}
    (hf : s.fault = 0#8) (h : effect i s = respond c d s) (is : List Instr) :
    runCommands (i :: is) s = runCommands is (respond c d s) := by
  rw [runCommands_cons_unfaulted hf, h]

/-- ENCODE of a payload that fits, VERIFY of its frame and DECODE of it, once ADDR is set: three OK
responses, and no register changes (R122, R140, R142). -/
theorem runCommands_encode_verify_decode {p : List Byte} (hp : p.length ≤ 252) {s : State}
    (hf : s.fault = 0#8) (ha : s.addrValid = true) (fc : Byte) :
    runCommands [.encode fc p, .verify (frameOf s.addr fc p) (frameOf s.addr fc p),
        .decode (frameOf s.addr fc p)] s =
      .next (respond .ok (fc :: (len16Bytes p.length ++ p)) (respond .ok []
        (respond .ok (len16Bytes (p.length + 4) ++ frameOf s.addr fc p) s))) := by
  have hlen : 4 ≤ (frameOf s.addr fc p).length := by
    rw [frameOf_length]
    omega
  rw [runCommands_cons_respond hf (effect_encode_ok (by omega) ha fc),
    runCommands_cons_respond (s := respond _ _ s) hf (effect_verify_self hlen _),
    runCommands_cons_respond (s := respond _ _ (respond _ _ s)) hf
      (effect_decode_frameOf hp _ _ _)]
  rfl

/-- Settles O30: SET_ADDR sets ADDR, and the three commands after it answer OK. -/
theorem exchangeEndsWell : Obligations.ExchangeEndsWell := by
  intro a fc p s hf hp
  have haf : (effect (.setAddr a) s).fault = 0#8 := hf
  have hrun := runCommands_encode_verify_decode hp haf rfl fc
  refine ⟨_, len16Bytes (p.length + 4), frameOf a fc p,
    (runCommands_cons_unfaulted hf _ _).trans hrun, ?_, rfl, hf, rfl, rfl⟩
  simp [effect, setAddrEffect, statusCode, len16Bytes]

/-! ## ADDR along a run -/

theorem lastAddr_of_writesAddr_false {i : Instr} (h : writesAddr i = false) :
    lastAddr [i] = none := by
  cases i with
  | setAddr a => cases h
  | _ => rfl

/-- A command that raises no fault leaves ADDR at its operand, if it is SET_ADDR, or as it was
(R31, R121). -/
theorem effect_addr {i : Instr} {s : State} (hf : (effect i s).fault = 0#8) :
    (effect i s).addr = (lastAddr [i]).getD s.addr := by
  obtain ⟨c, h⟩ | ⟨c, d, -, hw, h⟩ | ⟨rfl, h⟩ | ⟨data, rfl, -, h⟩ | ⟨a, rfl, h⟩ := effect_cases i s
  · simp [h] at hf
  · simp [h, lastAddr_of_writesAddr_false hw]
  · simp [h, lastAddr]
  · simp [h, lastAddr]
  · simp [h, lastAddr]

/-- The last SET_ADDR of a list is the last of its tail, or else its head. -/
theorem lastAddr_cons_getD (i : Instr) (is : List Instr) (x : Byte) :
    (lastAddr (i :: is)).getD x = (lastAddr is).getD ((lastAddr [i]).getD x) := by
  cases i <;> rfl

/-- Settles O42, by induction on the commands: each starts from the ADDR the one before it left. -/
theorem addressCarriesOver : Obligations.AddressCarriesOver := by
  intro is
  induction is with
  | nil =>
    intro s t hrun _
    cases hrun
    rfl
  | cons i is ih =>
    intro s t hrun ht
    obtain ⟨hf, htail⟩ := runCommands_head_unfaulted hrun ht
    rw [ih _ _ htail ht, effect_addr hf, lastAddr_cons_getD i is]

end Sys2Proof.Proofs

namespace Sys2Proof.Proofs

open Sys2Proof.Machine Sys2Proof.Safety Sys2Proof.Laws

/-! ## The laws of VERIFY, and commands whose outcome their operands fix -/

/-- Two answers from one state are the same where their status bytes are. -/
theorem withResponse_nil_inj {s : State} {a b : Byte} :
    withResponse s a [] = withResponse s b [] ↔ a = b := by
  simp [withResponse]

/-- The command touches no register but FAULT, and which answer or fault it has is fixed by its
operands, whatever the state is. -/
def OutcomeFixed (i : Instr) : Prop :=
  (∃ c d, ∀ s, effect i s = respond c d s) ∨ ∃ c, ∀ s, effect i s = raiseFault c s

/-- VERIFY reads no register (R31): each of its rows tests the operands alone. -/
theorem outcomeFixed_verify (q r : List Byte) : OutcomeFixed (.verify q r) := by
  by_cases hlen : 4 ≤ r.length
  · by_cases hq : q = []
    · subst hq
      exact .inr ⟨_, fun _ => effect_verify_noRequest hlen⟩
    · by_cases heq : r[0]? = q[0]?
      · exact .inl ⟨_, _, fun _ => (effect_verify_compare hlen hq).trans (if_pos heq)⟩
      · exact .inl ⟨_, _, fun _ => (effect_verify_compare hlen hq).trans (if_neg heq)⟩
  · exact .inl ⟨_, _, fun _ => effect_verify_short (Nat.not_le.mp hlen) q⟩

/-- DECODE reads no register (R31): each of its rows tests the frame alone. -/
theorem outcomeFixed_decode (f : List Byte) : OutcomeFixed (.decode f) := by
  by_cases hlen : f.length < 4 ∨ 256 < f.length
  · exact .inr ⟨_, fun _ => effect_decode_badLength hlen⟩
  · have hcompare (s : State) := effect_decode_compare (s := s) (f := f) (by omega) (by omega)
    by_cases heq : recomputed f = embedded f
    · exact .inl ⟨_, _, fun s => (hcompare s).trans (if_pos heq)⟩
    · exact .inl ⟨_, _, fun s => (hcompare s).trans (if_neg heq)⟩

/-- A command that once ran without a fault started unfaulted and, its outcome being fixed, gives
its one response from every unfaulted state. -/
theorem OutcomeFixed.exec_eq_respond {i : Instr} {s t : State} (hi : OutcomeFixed i)
    (h : exec i s = .next t) (ht : t.fault = 0#8) :
    s.fault = 0#8 ∧ ∃ c d, t = respond c d s ∧
      ∀ s' : State, s'.fault = 0#8 → exec i s' = .next (respond c d s') := by
  by_cases hs : s.fault = 0#8
  · rw [exec_unfaulted hs, Host.Outcome.next.injEq] at h
    subst h
    obtain ⟨c, d, hall⟩ | ⟨c, hall⟩ := hi
    · exact ⟨hs, c, d, hall s, fun s' hs' => by rw [exec_unfaulted hs', hall]⟩
    · rw [hall, raiseFault_fault] at ht
      exact absurd ht (causeCode_ne_zero c)
  · rw [exec_halted hs, Host.Outcome.next.injEq] at h
    subst h
    exact absurd ht hs

/-- Two such commands that run without a fault give the same two responses in the other order. -/
theorem exec_swap_responses {i j : Instr} {s t u : State} (hi : OutcomeFixed i)
    (hj : OutcomeFixed j) (ht : exec i s = .next t) (hu : exec j t = .next u)
    (huf : u.fault = 0#8) :
    ∃ rv rd t' u', t.responses = s.responses ++ [rv] ∧ u.responses = t.responses ++ [rd] ∧
      exec j s = .next t' ∧ t'.responses = s.responses ++ [rd] ∧
      exec i t' = .next u' ∧ u'.responses = t'.responses ++ [rv] := by
  obtain ⟨htf, _, _, rfl, hexecj⟩ := hj.exec_eq_respond hu huf
  obtain ⟨hsf, _, _, rfl, hexeci⟩ := hi.exec_eq_respond ht htf
  exact ⟨_, _, _, _, respond_responses _ _ _, respond_responses _ _ _,
    hexecj s hsf, respond_responses _ _ _, hexeci _ hsf, respond_responses _ _ _⟩

/-- Settles O29: the laws are rows of VERIFY, whose statuses differ, and neither VERIFY nor DECODE
has an outcome that the other could change. -/
theorem verifyLawsAndIndependence : Obligations.VerifyLawsAndIndependence := by
  obtain ⟨-, -, hshort, -, hdiffer, hequal⟩ := verifyChecksLengthThenAddress
  refine ⟨fun q r s hf h => hshort q r s hf (Nat.lt_succ_of_le h), fun q r s hf hr hq => ?_,
    fun q r f s t u _ => exec_swap_responses (outcomeFixed_verify q r) (outcomeFixed_decode f)⟩
  have hne : q ≠ [] := List.ne_nil_of_length_pos hq
  by_cases heq : r[0]? = q[0]?
  · simp [hequal q r s hf hr hne heq, withResponse_nil_inj, heq]
  · simp [hdiffer q r s hf hr hne heq, withResponse_nil_inj, heq]

end Sys2Proof.Proofs

namespace Sys2Proof.Proofs

open Sys2Proof.Machine Sys2Proof.Safety Sys2Proof.Laws

/-! ## Steps without a command, and the halted block -/

/-- Moves without a byte are passed over to the end (R67, R181). -/
theorem fetch_of_forall_send_nil {ms : List HostMove} (h : ∀ m ∈ ms, m = .send []) :
    fetch ms = .nothing := by
  induction ms with
  | nil => rfl
  | cons m ms ih =>
    obtain ⟨rfl, hms⟩ := List.forall_mem_cons.mp h
    exact ih hms

/-- Settles O11: there is nothing to fetch, and that is when a step is refused. -/
theorem stepWithoutCommandIsRefused : Obligations.StepWithoutCommandIsRefused :=
  fun _ h => step_refused_iff.mpr ⟨fetch_of_forall_send_nil h, rfl⟩

/-- Settles O32: the halted test comes first for every verdict. -/
theorem haltedBlockRepeatsFault : Obligations.HaltedBlockRepeatsFault :=
  fun v s h => (execVerdict_eq v s).trans (runCommand_halted h)

/-! ## The fault entry and its causes -/

/-- A verdict that completes on an unfaulted block leaves its effect. -/
theorem eq_verdictEffect_of_execVerdict {v : Verdict} {s t : State} (hf : s.fault = 0#8)
    (h : execVerdict v s = .next t) : t = verdictEffect v s := by
  rw [execVerdict_next, afterVerdict_unfaulted hf, Host.Outcome.next.injEq] at h
  exact h.symm

/-- Settles O31: of the two answers a verdict can have, only the fault entry leaves FAULT set. -/
theorem faultEntryIsPrecise : Obligations.FaultEntryIsPrecise := by
  intro v s t hf hexec ht
  have hanswer : Answers s t := eq_verdictEffect_of_execVerdict hf hexec ▸ verdictEffect_answers v s
  cases hanswer with
  | fault c => exact ⟨rfl, causeCode_range c⟩
  | response c d hfault => exact absurd (hfault.trans hf) ht

/-- The table of R173: the verdicts that raise a cause, and the condition they raise it under. -/
def CauseRow (v : Verdict) (s : State) : Cause → Prop
  | .illegalOpcode => ∃ op, v = .illegal op
  | .truncated => v = .truncated
  | .crcUninit => s.crcValid = false ∧ (v = .command .crcValue ∨ ∃ d, v = .command (.crcPush d))
  | .addrUnset => s.addrValid = false ∧ ∃ fc p, v = .command (.encode fc p) ∧ p.length ≤ 252
  | .decodeLength => ∃ f, v = .command (.decode f) ∧ (f.length < 4 ∨ 256 < f.length)
  | .verifyNoRequest => ∃ r, v = .command (.verify [] r) ∧ 4 ≤ r.length

/-- A verdict in a row of the table raises the row's cause. -/
theorem verdictEffect_of_causeRow {v : Verdict} {s : State} {c : Cause} (h : CauseRow v s c) :
    verdictEffect v s = raiseFault c s := by
  cases c with
  | illegalOpcode =>
    obtain ⟨op, rfl⟩ := h
    rfl
  | truncated =>
    obtain rfl : v = .truncated := h
    rfl
  | crcUninit =>
    obtain ⟨hv, rfl | ⟨d, rfl⟩⟩ := h
    · exact effect_crcValue_uninit hv
    · exact effect_crcPush_uninit hv d
  | addrUnset =>
    obtain ⟨ha, fc, p, rfl, hlen⟩ := h
    exact effect_encode_addrUnset (by omega) ha fc
  | decodeLength =>
    obtain ⟨f, rfl, hlen⟩ := h
    exact effect_decode_badLength hlen
  | verifyNoRequest =>
    obtain ⟨r, rfl, hlen⟩ := h
    exact effect_verify_noRequest hlen

/-- A command that is in no row of the table leaves FAULT as it was. -/
theorem causeRow_or_effect_fault (i : Instr) (s : State) :
    (∃ c, CauseRow (.command i) s c) ∨ (effect i s).fault = s.fault := by
  cases i with
  | crcReset | setAddr a => exact .inr rfl
  | crcPush data =>
    cases hv : s.crcValid with
    | false => exact .inl ⟨.crcUninit, hv, .inr ⟨data, rfl⟩⟩
    | true => exact .inr (by simp [effect_crcPush_ok hv])
  | crcValue =>
    cases hv : s.crcValid with
    | false => exact .inl ⟨.crcUninit, hv, .inl rfl⟩
    | true => exact .inr (by simp [effect_crcValue_ok hv])
  | encode fc payload =>
    by_cases hlen : payload.length + 4 ≤ 256
    · cases ha : s.addrValid with
      | false => exact .inl ⟨.addrUnset, ha, fc, payload, rfl, by omega⟩
      | true => exact .inr (by simp [effect_encode_ok hlen ha])
    · exact .inr (by simp [effect_encode_tooLarge (Nat.not_le.mp hlen)])
  | verify req resp =>
    by_cases hlen : 4 ≤ resp.length
    · by_cases hq : req = []
      · exact .inl ⟨.verifyNoRequest, resp, by rw [hq], hlen⟩
      · right
        rw [effect_verify_compare hlen hq]
        split <;> rfl
    · exact .inr (by simp [effect_verify_short (Nat.not_le.mp hlen)])
  | decode frame =>
    by_cases hlen : frame.length < 4 ∨ 256 < frame.length
    · exact .inl ⟨.decodeLength, frame, rfl, hlen⟩
    · right
      rw [effect_decode_compare (by omega) (by omega)]
      split <;> rfl

/-- Every verdict is in a row of the table or leaves FAULT as it was. -/
theorem causeRow_or_verdictEffect_fault (v : Verdict) (s : State) :
    (∃ c, CauseRow v s c) ∨ (verdictEffect v s).fault = s.fault := by
  cases v with
  | command i => exact causeRow_or_effect_fault i s
  | illegal op => exact .inl ⟨.illegalOpcode, op, rfl⟩
  | truncated => exact .inl ⟨.truncated, rfl⟩

theorem causeCode_injective : Function.Injective causeCode := by
  intro c d
  cases c <;> cases d <;> decide

/-- On an unfaulted block FAULT ends as a row's cause code exactly for the verdicts in that row. -/
theorem verdictEffect_fault_eq_causeCode_iff {v : Verdict} {s : State} (hf : s.fault = 0#8)
    (c : Cause) : (verdictEffect v s).fault = causeCode c ↔ CauseRow v s c := by
  refine ⟨fun h => ?_, fun h => by rw [verdictEffect_of_causeRow h, raiseFault_fault]⟩
  obtain ⟨d, hd⟩ | hsame := causeRow_or_verdictEffect_fault v s
  · rw [verdictEffect_of_causeRow hd, raiseFault_fault] at h
    exact causeCode_injective h ▸ hd
  · rw [hsame, hf] at h
    exact absurd h.symm (causeCode_ne_zero c)

/-- From an unfaulted block FAULT ends as 0x00 or a cause of R173. -/
theorem Answers.fault_toNat_le {s t : State} (h : Answers s t) (hf : s.fault = 0#8) :
    t.fault.toNat ≤ 6 := by
  cases h with
  | fault c => exact (causeCode_range c).2
  | response c d hfault => simp [hfault, hf]

/-- Settles O34: each clause is a row of the table. -/
theorem faultCausesAndConditions : Obligations.FaultCausesAndConditions := by
  intro v s t hf hexec
  obtain rfl := eq_verdictEffect_of_execVerdict hf hexec
  have hrow := verdictEffect_fault_eq_causeCode_iff (v := v) hf
  exact ⟨hrow .illegalOpcode, hrow .truncated, hrow .crcUninit, hrow .addrUnset,
    hrow .decodeLength, hrow .verifyNoRequest, (verdictEffect_answers v s).fault_toNat_le hf⟩

/-! ## How a run ends -/

/-- An unfaulted block stays unfaulted exactly where its answer is no fault status (R170, R174). -/
theorem Answers.fault_eq_zero_iff {s t : State} (h : Answers s t) (hf : s.fault = 0#8) :
    ∃ r, t.responses = s.responses ++ [r] ∧ (t.fault = 0#8 ↔ r.status.toNat < 0x80) := by
  cases h with
  | fault c =>
    have hstatus := faultStatus_toNat (causeCode_range c).2
    refine ⟨_, raiseFault_responses s c, ?_⟩
    simp only [raiseFault_fault, causeCode_ne_zero, hstatus, false_iff]
    omega
  | response c d hfault hresp =>
    have hstatus := statusCode_toNat_le c
    refine ⟨_, hresp, ?_⟩
    simp only [hfault, hf, true_iff]
    omega

/-- A verdict ends unfaulted exactly where it starts unfaulted and answers no fault status. -/
theorem afterVerdict_fault_eq_zero_iff (v : Verdict) (s : State) :
    ∃ r, (afterVerdict v s).responses = s.responses ++ [r] ∧
      ((afterVerdict v s).fault = 0#8 ↔ s.fault = 0#8 ∧ r.status.toNat < 0x80) := by
  by_cases hf : s.fault = 0#8
  · obtain ⟨r, hresp, hiff⟩ := (verdictEffect_answers v s).fault_eq_zero_iff hf
    rw [afterVerdict_unfaulted hf]
    exact ⟨r, hresp, hiff.trans (and_iff_right hf).symm⟩
  · rw [afterVerdict_halted hf]
    exact ⟨_, respondHalted_responses s, iff_of_false hf fun ⟨h, _⟩ => hf h⟩

/-- A run from any state, halted or not: one response a verdict, and an unfaulted end exactly where
it starts unfaulted and answers no fault status (R175, R184). -/
theorem runVerdicts_endsWell_iff (vs : List Verdict) (s : State) :
    ∃ t rs, runVerdicts vs s = .next t ∧ t.responses = s.responses ++ rs ∧ rs.length = vs.length ∧
      (EndsWell t ↔ s.fault = 0#8 ∧ ∀ r ∈ rs, r.status.toNat < 0x80) := by
  induction vs generalizing s with
  | nil => exact ⟨s, [], rfl, by simp, rfl, by simp⟩
  | cons v vs ih =>
    obtain ⟨r, hr, hhead⟩ := afterVerdict_fault_eq_zero_iff v s
    obtain ⟨t, rs, hrun, hrs, hlen, htail⟩ := ih (afterVerdict v s)
    refine ⟨t, r :: rs, (runVerdicts_cons v vs s).trans hrun, ?_, congrArg (· + 1) hlen, ?_⟩
    · rw [hrs, hr, List.append_assoc, List.singleton_append]
    · rw [htail, hhead, and_assoc, List.forall_mem_cons]

/-- Settles O43: the run started unfaulted, so only the statuses are left to decide how it ends. -/
theorem runEndsWellWithoutFaultStatus : Obligations.RunEndsWellWithoutFaultStatus := by
  intro vs s hf
  obtain ⟨t, rs, hrun, hrs, hlen, hiff⟩ := runVerdicts_endsWell_iff vs s
  exact ⟨t, rs, hrun, hrs, hlen, hiff.trans (and_iff_right hf)⟩

/-- Settles O49: reset is unfaulted with no response yet, and a stream sent as the host's one move
is stepped through as its verdicts. -/
theorem runsStartFromReset : Obligations.RunsStartFromReset := by
  refine ⟨fun vs hwf => ?_, fun bs hne => ?_⟩
  · obtain ⟨t, rs, hrun, hrs, hlen, hiff⟩ := runEndsWellWithoutFaultStatus vs State.reset rfl
    obtain rfl : t.responses = rs := hrs
    exact ⟨t, ⟨hwf, hrun⟩, hlen, rfl, hiff⟩
  · have hrun := runVerdicts_next (decodeStream bs) State.reset
    have hsteps := stepsOfStreamRunItsVerdicts (setInput [.send bs] State.reset) bs [] hne rfl
    exact ⟨_, ⟨streamVerdictsAreWellFormed bs, hrun⟩, hsteps.trans hrun⟩

end Sys2Proof.Proofs

namespace Sys2Proof.Proofs

open Sys2Proof.Machine Sys2Proof.Safety Sys2Proof.Laws

/-! ## The reset signal, and what reset leaves -/

/-- A reset signal at the head of the host's moves is what is fetched, with the later moves left
(R181). -/
theorem fetch_of_input_reset {s : State} {ms : List HostMove} (h : s.input = .reset :: ms) :
    fetch s.input = .reset ms :=
  congrArg fetch h

/-- Settles O10: the step is the reset signal on the state with that move taken, and the reset signal
leaves the moves and the responses (log entry 8). -/
theorem stepTakesResetSignal : Obligations.StepTakesResetSignal := by
  intro s ms hinput
  have hstep := step_of_reset (fetch_of_input_reset hinput)
  exact ⟨_, hstep, resetSignal_crcValid _, resetSignal_addrValid _, resetSignal_fault _,
    resetSignal_input _, resetSignal_responses _⟩

/-- Settles O13: each value is a field of `State.reset` as it is defined. -/
theorem resetLeavesNothingValid : Obligations.ResetLeavesNothingValid :=
  ⟨rfl, rfl, rfl, rfl⟩

end Sys2Proof.Proofs
